-- ==== Sys2Proof/Word.lean ====
section
/-! DEFINITION. The value types of 00_scope.md R8 and R9: bytes, u16, u32, byte sequences. -/

namespace Sys2Proof

/-- An unsigned 8-bit value (R8). -/
abbrev Byte := BitVec 8

/-- An unsigned 16-bit value (R8). -/
abbrev U16 := BitVec 16

/-- An unsigned 32-bit value (R8). -/
abbrev U32 := BitVec 32

/-- A byte sequence `S`, `S[0]` first (R9). -/
abbrev Bytes := List Byte

end Sys2Proof
end

