-- ==== Sys2Proof/Config.lean ====
section
/-! DEFINITION. What an implementation fixes and the one value the spec leaves free: the type of the length bounds of
00_scope.md R7, and the server wall clock `NOW` of 44_dispatcher.md R179. -/

namespace Sys2Proof

/-- The parameters `LEN_MIN` and `LEN_MAX` of R7: both bounds of the length field are inclusive (R114). -/
structure Bounds where
  lenMin : Nat
  lenMax : Nat
deriving DecidableEq, Repr

/-- R7: "A model must keep 4 <= LEN_MIN <= LEN_MAX <= 65535 if it makes LEN_MIN and LEN_MAX arguments". -/
abbrev Bounds.Valid (b : Bounds) : Prop :=
  4 ≤ b.lenMin ∧ b.lenMin ≤ b.lenMax ∧ b.lenMax ≤ 65535

/-- The server wall clock at its `n`-th draw: a FREE VALUE (R179: "a model treats it as a free draw, a new one for each
DISPATCH"; R7, D12, I4). It has no body: nothing about any of its values can be proved (log 10, safe). One clock serves
all connections, and one count numbers its draws (DESIGN CHOICE, log 10). -/
opaque Config.wallClock : Nat → U32

end Sys2Proof
end

