-- ==== Sys2Proof/Machine/Params.lean ====
section
/-! DEFINITION. The constants of 00_scope.md R6, the values R7 takes for its parameters, and the message-type codes of
30_encoding.md R63. They stand here and not in Config.lean so that a later repair can reach them. -/

namespace Sys2Proof.Machine

/-- Each of the two bytes of `MARKER` (R6: bytes `40 40`). -/
def markByte : Byte := 0x40
/-- `FOOTER`, first byte (R6: bytes `0D 0A`). -/
def footByte0 : Byte := 0x0D
/-- `FOOTER`, second byte (R6). -/
def footByte1 : Byte := 0x0A
/-- `ID_LEN` (R6). -/
def idLen : Nat := 20
/-- `OVERHEAD` (R6): bytes of a frame with empty content. -/
def overhead : Nat := 31
/-- `CONTENT_OFF` (R6). -/
def contentOff : Nat := 27
/-- `POLY` (R6). -/
def crcPoly : U16 := 0x1021
/-- `CRC_INIT` (R6). -/
def crcInit : U16 := 0xFFFF
/-- `CRC_XOROUT` (R6). -/
def crcXorOut : U16 := 0xFFFF
/-- `RSM_MIN_BYTES` (R6). -/
def rsmMinBytes : Nat := 4
/-- The longest content a 16-bit length field admits (R162: 65504). -/
def contentMax : Nat := 65504

/-- `LEN_MIN = 8`, `LEN_MAX = 2048` (R7, D1, C1; log 6). -/
def frontEndBounds : Bounds := ⟨8, 2048⟩

/-- Message-type codes (R63). -/
def typeLogin : U16 := 0x1001
def typeLogout : U16 := 0x1002
def typeHeartbeat : U16 := 0x1003
def typeGps : U16 := 0x4001
def typePid : U16 := 0x4002
def typeAlarm : U16 := 0x4007
def typeHeartbeatLegacy : U16 := 0x6001
def typeLoginReply : U16 := 0x9001
def typeHeartbeatReply : U16 := 0x9003
def typeAlarmReply : U16 := 0xC007

/-- The type codes that have a row of their own in the opcode table; every other value is row OTHER (R63, R186). -/
def namedTypes : List U16 :=
  [typeLogin, typeLogout, typeHeartbeat, typeGps, typePid, typeAlarm, typeHeartbeatLegacy,
   typeLoginReply, typeHeartbeatReply, typeAlarmReply]

end Sys2Proof.Machine
end

