-- ==== Sys2Proof/Syntax.lean ====
section
/-! DEFINITION. The instructions: one constructor for each row of spec/opcode_table.json (11 frame types, R63; 6
operations, R67), the values their operands range over, and the reasons bytes are no command. -/

namespace Sys2Proof

/-- The Frame record of 10_state.md R30, the value PARSE returns. -/
structure Frame where
  version : Byte
  deviceIdRaw : Bytes
  deviceId : Bytes
  messageType : U16
  content : Bytes
  raw : Bytes
  checksumValid : Bool
deriving DecidableEq, Repr

/-- What PARSE returns: the sentinel `invalid` or a Frame record (R140, R200). -/
inductive ParseResult where
  | invalid
  | frame (f : Frame)
deriving DecidableEq, Repr

/-- The fields of a wire frame that its type and the format leave free (R60, R61): marker and length follow from the
format. The stored checksum and the two footer bytes are operands, for no unit rejects a wrong one (R66). -/
structure WireFrame where
  version : Byte
  deviceIdRaw : Bytes
  content : Bytes
  checksum : U16
  footer0 : Byte
  footer1 : Byte
deriving DecidableEq, Repr

/-- One constructor per row of spec/opcode_table.json. A frame-type constructor is one complete frame of that type
handed to the pipeline behind the reassembler (log 4); an operation constructor is one invocation by the host (R67). -/
inductive Instr where
  | login (w : WireFrame)
  | logout (w : WireFrame)
  | heartbeat (w : WireFrame)
  | gps (w : WireFrame)
  | pid (w : WireFrame)
  | alarm (w : WireFrame)
  | heartbeatLegacy (w : WireFrame)
  | loginReply (w : WireFrame)
  | heartbeatReply (w : WireFrame)
  | alarmReply (w : WireFrame)
  | other (messageType : U16) (w : WireFrame)
  | crc16 (bytes : Bytes) (offset : Nat) (length : Nat)
  | feed (chunk : Bytes)
  | parse (frameBytes : Bytes)
  | build (version : Byte) (id : Bytes) (messageType : U16) (content : Option Bytes)
  | dispatch (f : ParseResult) (now : U32)
  | rx (chunk : Bytes) (nows : List U32)
deriving DecidableEq, Repr

/-- Why bytes are no command (Decode.lean). -/
inductive DecodeError where
  /-- no byte at all -/
  | noCommand
  /-- the first byte is neither the marker byte nor a selector 0 to 5 of R67 -/
  | unknownSelector (b : Byte)
  /-- an operation's operands end before they are complete -/
  | truncated
  /-- bytes are left after an operation's last operand -/
  | trailing
  /-- an operand's form byte is neither 0 nor 1 -/
  | badForm
  /-- the first byte is `40`, the second is not -/
  | badMarker
  /-- a frame of fewer than 31 bytes (R141) -/
  | shortFrame
  /-- a frame whose declared length is not its presented length (R142) -/
  | lengthMismatch
deriving DecidableEq, Repr

end Sys2Proof
end

