-- ==== Sys2Proof/Machine/Operands.lean ====
section
/-! DEFINITION. Slices and the field assembly primitives of 00_scope.md R9 and R10, and the layout of a wire frame
(20_memory.md R46, 30_encoding.md R60) that BUILD, the frame rows and the decoder share. -/

namespace Sys2Proof.Machine

/-- `S[i]` (R9). Every use stands behind a test that puts `i` inside `S` (log 21). -/
def byteAt (S : Bytes) (i : Nat) : Byte := S.getD i 0

/-- `S[a..b)` (R9). -/
def slice (S : Bytes) (a b : Nat) : Bytes := (S.drop a).take (b - a)

/-- `LE16(S, i)` (R10): low byte first. -/
def readLE16 (S : Bytes) (i : Nat) : U16 := byteAt S (i + 1) ++ byteAt S i

/-- `BE16(S, i)` (R10): high byte first. -/
def readBE16 (S : Bytes) (i : Nat) : U16 := byteAt S i ++ byteAt S (i + 1)

/-- `LE32(S, i)` (R10). -/
def readLE32 (S : Bytes) (i : Nat) : U32 :=
  byteAt S (i + 3) ++ byteAt S (i + 2) ++ byteAt S (i + 1) ++ byteAt S i

/-- `le16(v)` (R10). -/
def le16 (v : U16) : Bytes := [v.extractLsb' 0 8, v.extractLsb' 8 8]

/-- `be16(v)` (R10). -/
def be16 (v : U16) : Bytes := [v.extractLsb' 8 8, v.extractLsb' 0 8]

/-- `le32(v)` (R10). -/
def le32 (v : U32) : Bytes :=
  [v.extractLsb' 0 8, v.extractLsb' 8 8, v.extractLsb' 16 8, v.extractLsb' 24 8]

/-- The bytes of a frame before its checksum: marker, length `31 + N` little-endian, version, id, type big-endian,
content (R60, R161; R160's `body`). -/
def frameBody (version : Byte) (id : Bytes) (messageType : U16) (content : Bytes) : Bytes :=
  [markByte, markByte] ++ le16 (BitVec.ofNat 16 (overhead + content.length)) ++ [version] ++ id ++
    be16 messageType ++ content

/-- The bytes of a received frame of type `t` with the free fields `w` (R60). -/
def frameBytes (t : U16) (w : WireFrame) : Bytes :=
  frameBody w.version w.deviceIdRaw t w.content ++ le16 w.checksum ++ [w.footer0, w.footer1]

/-- A content operand that may be absent: "absent means `N = 0`" (R160, R70). -/
def contentOrEmpty : Option Bytes → Bytes
  | none => []
  | some c => c

end Sys2Proof.Machine
end

