-- ==== Sys2Proof/Machine/Crc.lean ====
section
/-! DEFINITION. The Checksum Engine (40_crc.md): reflections, TABLE, the per-byte step, CRC16, and the forms R99 and R100
say are equal to it. -/

namespace Sys2Proof.Machine

/-- The value whose bit `i` is bit `w - 1 - i` of `v` (R13 "reflected"): the sum of R90 and R91, one bit a term. -/
def reflect {w : Nat} (v : BitVec w) : BitVec w :=
  (List.range w).foldl (fun acc i => acc ||| (((v >>> i) &&& 1#w) <<< (w - 1 - i))) 0#w

/-- `REFLECT8` (R90). -/
def reflect8 (b : Byte) : Byte := reflect b

/-- `REFLECT16` (R91). -/
def reflect16 (v : U16) : U16 := reflect v

/-- One round of R92: `(crc & 0x8000) ? (crc<<1)^poly : crc<<1`, masked to 16 bits. -/
def tableRound (c : U16) : U16 :=
  if c &&& 0x8000#16 ≠ 0#16 then (c <<< 1) ^^^ crcPoly else c <<< 1

/-- `f` applied `n` times. -/
def rounds {α : Type} (f : α → α) : Nat → α → α
  | 0, x => x
  | n + 1, x => rounds f n (f x)

/-- `TABLE[i]`: eight rounds on `i << 8` (R92; its values are listed in R93). A constant, not state (R22; log 11). -/
def TABLE (i : Byte) : U16 := rounds tableRound 8 (i.setWidth 16 <<< 8)

/-- `CRC_STEP(c, b)` (R94). -/
def crcStep (c : U16) (b : Byte) : U16 :=
  (c <<< 8) ^^^ TABLE ((c >>> 8).setWidth 8 ^^^ reflect8 b)

/-- The value CRC16 returns for an in-range range (R95): start at `0xFFFF`, one step a byte in increasing order, reflect,
exclusive-or `0xFFFF`. -/
def crcRange (S : Bytes) (offset length : Nat) : U16 :=
  reflect16 ((slice S offset (offset + length)).foldl crcStep crcInit) ^^^ crcXorOut

/-- `CRC16(S, offset, length)` (R95); `none` is *refused* (R97(b), R12). -/
def crc16 (S : Bytes) (offset length : Nat) : Option U16 :=
  if offset + length ≤ S.length then some (crcRange S offset length) else none

/-- One bit of the bit-serial form (R99): `inbit` enters against the top bit. -/
def serialBit (c : U16) (inbit : Bool) : U16 :=
  if (c.msb ^^ inbit) then (c <<< 1) ^^^ crcPoly else c <<< 1

/-- One byte of the bit-serial form (R99): bit 0 of the byte first. -/
def serialByte (c : U16) (b : Byte) : U16 :=
  (List.range 8).foldl (fun c i => serialBit c (b.getLsbD i)) c

/-- `CRC16_SERIAL` on an in-range range (R99). -/
def crcRangeSerial (S : Bytes) (offset length : Nat) : U16 :=
  reflect16 ((slice S offset (offset + length)).foldl serialByte crcInit) ^^^ crcXorOut

/-- One round of the reflected form (R100): `0x8408 = REFLECT16(0x1021)`. -/
def reflectedRound (c : U16) : U16 :=
  if c &&& 1#16 ≠ 0#16 then (c >>> 1) ^^^ 0x8408#16 else c >>> 1

/-- One byte of the reflected form (R100). -/
def reflectedByte (c : U16) (b : Byte) : U16 := rounds reflectedRound 8 (c ^^^ b.setWidth 16)

/-- `CRC16_REFLECTED` on an in-range range (R100). -/
def crcRangeReflected (S : Bytes) (offset length : Nat) : U16 :=
  (slice S offset (offset + length)).foldl reflectedByte crcInit ^^^ crcXorOut

/-- `RTABLE[i] = REFLECT16(TABLE[REFLECT8(i)])` (R100). -/
def RTABLE (i : Byte) : U16 := reflect16 (TABLE (reflect8 i))

/-- One byte of the reflected byte-table variant (R100). -/
def reflectedTableByte (c : U16) (b : Byte) : U16 :=
  (c >>> 8) ^^^ RTABLE ((c ^^^ b.setWidth 16).setWidth 8)

/-- The reflected byte-table variant on an in-range range (R100). -/
def crcRangeReflectedTable (S : Bytes) (offset length : Nat) : U16 :=
  (slice S offset (offset + length)).foldl reflectedTableByte crcInit ^^^ crcXorOut

end Sys2Proof.Machine
end

