-- ==== Sys2Proof/WellFormed.lean ====
section
/-! DEFINITION. Which instructions can be written down as command bytes: the format's own limits for the frame types
(R60, R162). An operation's operands are of any length and size (R68), and every operation has its command bytes (log 3). The
meanings in Machine/ are total and do not ask for it. -/

namespace Sys2Proof

/-- A device id of exactly 20 bytes (R60) and a content the 16-bit length field can declare (R162). -/
def WireFrame.wellFormed (w : WireFrame) : Bool :=
  decide (w.deviceIdRaw.length = Machine.idLen ∧ w.content.length ≤ Machine.contentMax)

/-- See the file's header. Row OTHER stands for the types that have no row of their own (R63, R186). -/
def Instr.wellFormed : Instr → Bool
  | .login w => w.wellFormed
  | .logout w => w.wellFormed
  | .heartbeat w => w.wellFormed
  | .gps w => w.wellFormed
  | .pid w => w.wellFormed
  | .alarm w => w.wellFormed
  | .heartbeatLegacy w => w.wellFormed
  | .loginReply w => w.wellFormed
  | .heartbeatReply w => w.wellFormed
  | .alarmReply w => w.wellFormed
  | .other t w => !Machine.namedTypes.contains t && w.wellFormed
  | .crc16 _ _ _ => true
  | .feed _ => true
  | .parse _ => true
  | .build _ _ _ _ => true
  | .dispatch _ _ => true
  | .rx _ _ => true

end Sys2Proof
end

