-- ==== Sys2Proof/Decode.lean ====
section
/-! DEFINITION. The decoder of a command's bytes, and after it the encoder.

A command whose first byte is `40` is one wire frame in the format of 30_encoding.md R60, its type read from offsets 25
and 26 (R61, R63). Any other command is an operation: its first byte is the selector of R67, its operands follow in the
model's own layout, which the spec does not give (R68, N1; log 3):
a count or a natural is a run of bytes, each `FF` adding 255 and the first other byte adding itself and ending it, so that
no operand's length is bounded (R68); a byte sequence is its count and its bytes; the count of BUILD's id and of a Frame
record's id has 0 and 20 exchanged, so that a zero byte announces the 20 bytes R160 asks for; a message type is big-endian
as in a frame; an optional content is a byte 0 (absent) or 1 and the sequence; DISPATCH's operand is a byte
0 and the record's fields in R30's order, or a byte 1 for `invalid`; a supply of NOW values is its count and four
bytes each. -/

namespace Sys2Proof

open Sys2Proof.Machine

/-- What reading an operand answers: the operand and the bytes after it. -/
abbrev Reading (α : Type) := Except DecodeError (α × Bytes)

/-- Reads one byte. -/
def takeByte : Bytes → Reading Byte
  | [] => .error .truncated
  | b :: r => .ok (b, r)

/-- Reads `n` bytes. -/
def takeBytes (n : Nat) (S : Bytes) : Reading Bytes :=
  if n ≤ S.length then .ok (S.take n, S.drop n) else .error .truncated

/-- Reads one operand and goes on with the bytes after it. -/
def andThen {α β : Type} (x : Reading α) (f : α → Bytes → Reading β) : Reading β :=
  match x with
  | .error e => .error e
  | .ok (v, r) => f v r

/-- Reads a u16, high byte first. -/
def takeBE16 (S : Bytes) : Reading U16 :=
  andThen (takeBytes 2 S) fun x r => .ok (readBE16 x 0, r)

/-- Reads a u32, low byte first. -/
def takeLE32 (S : Bytes) : Reading U32 :=
  andThen (takeBytes 4 S) fun x r => .ok (readLE32 x 0, r)

/-- Reads a count or a natural, of any size: each `FF` adds 255, the first other byte adds itself and ends it. -/
def takeCount : Bytes → Reading Nat
  | [] => .error .truncated
  | b :: r => if b = 0xFF then andThen (takeCount r) fun n r' => .ok (n + 255, r') else .ok (b.toNat, r)

/-- Reads a counted byte sequence. -/
def takeSeq (S : Bytes) : Reading Bytes :=
  andThen (takeCount S) fun n r => takeBytes n r

/-- The count of a device id with 0 and 20 exchanged; its own inverse. -/
def idCount (n : Nat) : Nat := if n = 0 then idLen else if n = idLen then 0 else n

/-- Reads a device id. -/
def takeId (S : Bytes) : Reading Bytes :=
  andThen (takeCount S) fun n r => takeBytes (idCount n) r

/-- Reads `n` u32 values. -/
def takeWords : Nat → Bytes → Reading (List U32)
  | 0, S => .ok ([], S)
  | n + 1, S => andThen (takeLE32 S) fun v r => andThen (takeWords n r) fun vs r' => .ok (v :: vs, r')

/-- Reads a form byte: 0 or 1. -/
def takeForm (S : Bytes) : Reading Bool :=
  andThen (takeByte S) fun b r =>
    if b = 0 then .ok (false, r) else if b = 1 then .ok (true, r) else .error .badForm

/-- Reads a Frame record, the fields in R30's order. -/
def takeFrame (S : Bytes) : Reading Frame :=
  andThen (takeByte S) fun version r =>
  andThen (takeId r) fun deviceIdRaw r =>
  andThen (takeSeq r) fun deviceId r =>
  andThen (takeBE16 r) fun messageType r =>
  andThen (takeSeq r) fun content r =>
  andThen (takeSeq r) fun raw r =>
  andThen (takeForm r) fun checksumValid r =>
  .ok ({ version, deviceIdRaw, deviceId, messageType, content, raw, checksumValid }, r)

/-- CRC16's operands (R67). -/
def takeCrc16 (S : Bytes) : Reading Instr :=
  andThen (takeCount S) fun offset r =>
  andThen (takeCount r) fun length r =>
  andThen (takeSeq r) fun bytes r => .ok (.crc16 bytes offset length, r)

/-- FEED's operand (R67). -/
def takeFeed (S : Bytes) : Reading Instr :=
  andThen (takeSeq S) fun chunk r => .ok (.feed chunk, r)

/-- PARSE's operand (R67). -/
def takeParse (S : Bytes) : Reading Instr :=
  andThen (takeSeq S) fun F r => .ok (.parse F, r)

/-- BUILD's optional content. -/
def takeContent (S : Bytes) : Reading (Option Bytes) :=
  andThen (takeForm S) fun given r =>
    if given then andThen (takeSeq r) fun content r => .ok (some content, r) else .ok (none, r)

/-- BUILD's operands (R67). -/
def takeBuild (S : Bytes) : Reading Instr :=
  andThen (takeByte S) fun version r =>
  andThen (takeBE16 r) fun messageType r =>
  andThen (takeId r) fun id r =>
  andThen (takeContent r) fun content r => .ok (.build version id messageType content, r)

/-- DISPATCH's first operand. -/
def takeParsed (S : Bytes) : Reading ParseResult :=
  andThen (takeForm S) fun invalid r =>
    if invalid then .ok (.invalid, r) else andThen (takeFrame r) fun f r => .ok (.frame f, r)

/-- DISPATCH's operands (R67). -/
def takeDispatch (S : Bytes) : Reading Instr :=
  andThen (takeParsed S) fun f r =>
  andThen (takeLE32 r) fun now r => .ok (.dispatch f now, r)

/-- RX's operands (R67). -/
def takeRx (S : Bytes) : Reading Instr :=
  andThen (takeSeq S) fun chunk r =>
  andThen (takeCount r) fun n r =>
  andThen (takeWords n r) fun nows r => .ok (.rx chunk nows, r)

/-- An operation by its selector (R67). -/
def takeOperation (selector : Byte) (S : Bytes) : Reading Instr :=
  if selector = 0 then takeCrc16 S
  else if selector = 1 then takeFeed S
  else if selector = 2 then takeParse S
  else if selector = 3 then takeBuild S
  else if selector = 4 then takeDispatch S
  else if selector = 5 then takeRx S
  else .error (.unknownSelector selector)

/-- A command is the operation and nothing after it. -/
def whole (x : Reading Instr) : Except DecodeError Instr :=
  match x with
  | .error e => .error e
  | .ok (i, []) => .ok i
  | .ok (_, _ :: _) => .error .trailing

/-- The row of a message type (R63): matched on all 16 bits. -/
def rowOfType (t : U16) (w : WireFrame) : Instr :=
  if t = typeLogin then .login w
  else if t = typeLogout then .logout w
  else if t = typeHeartbeat then .heartbeat w
  else if t = typeGps then .gps w
  else if t = typePid then .pid w
  else if t = typeAlarm then .alarm w
  else if t = typeHeartbeatLegacy then .heartbeatLegacy w
  else if t = typeLoginReply then .loginReply w
  else if t = typeHeartbeatReply then .heartbeatReply w
  else if t = typeAlarmReply then .alarmReply w
  else .other t w

/-- The free fields of a wire frame (R61). -/
def wireOf (F : Bytes) : WireFrame :=
  { version := byteAt F 4
    deviceIdRaw := slice F 5 25
    content := slice F contentOff (F.length - 4)
    checksum := readLE16 F (F.length - 4)
    footer0 := byteAt F (F.length - 2)
    footer1 := byteAt F (F.length - 1) }

/-- One wire frame (R60, R61): marker, length and type; neither checksum nor footer is examined (R66). -/
def decodeFrame (F : Bytes) : Except DecodeError Instr :=
  if byteAt F 0 ≠ markByte ∨ byteAt F 1 ≠ markByte then .error .badMarker
  else if F.length < overhead then .error .shortFrame
  else if (readLE16 F 2).toNat ≠ F.length then .error .lengthMismatch
  else .ok (rowOfType (readBE16 F 25) (wireOf F))

/-- The instruction a command's bytes stand for; total, rejecting by name. -/
def decode (S : Bytes) : Except DecodeError Instr :=
  match S with
  | [] => .error .noCommand
  | b :: r => if b = markByte then decodeFrame S else whole (takeOperation b r)

/-- A count or a natural as bytes. -/
def putCount (n : Nat) : Bytes := List.replicate (n / 255) 0xFF ++ [BitVec.ofNat 8 (n % 255)]

/-- A counted byte sequence. -/
def putSeq (S : Bytes) : Bytes := putCount S.length ++ S

/-- A device id. -/
def putId (S : Bytes) : Bytes := putCount (idCount S.length) ++ S

/-- A form byte. -/
def putForm (x : Bool) : Bytes := if x then [1] else [0]

/-- A supply of NOW values, without its count. -/
def putWords : List U32 → Bytes
  | [] => []
  | v :: vs => le32 v ++ putWords vs

/-- A Frame record, the fields in R30's order. -/
def putFrame (f : Frame) : Bytes :=
  [f.version] ++ putId f.deviceIdRaw ++ putSeq f.deviceId ++ be16 f.messageType ++ putSeq f.content ++
    putSeq f.raw ++ putForm f.checksumValid

/-- BUILD's optional content. -/
def putContent : Option Bytes → Bytes
  | none => putForm false
  | some c => putForm true ++ putSeq c

/-- DISPATCH's operand. -/
def putParsed : ParseResult → Bytes
  | .invalid => putForm true
  | .frame f => putForm false ++ putFrame f

/-- The bytes of an instruction: a frame row in the wire format (R60), an operation as its selector (R67) and its
operands. -/
def encode : Instr → Bytes
  | .login w => frameBytes typeLogin w
  | .logout w => frameBytes typeLogout w
  | .heartbeat w => frameBytes typeHeartbeat w
  | .gps w => frameBytes typeGps w
  | .pid w => frameBytes typePid w
  | .alarm w => frameBytes typeAlarm w
  | .heartbeatLegacy w => frameBytes typeHeartbeatLegacy w
  | .loginReply w => frameBytes typeLoginReply w
  | .heartbeatReply w => frameBytes typeHeartbeatReply w
  | .alarmReply w => frameBytes typeAlarmReply w
  | .other t w => frameBytes t w
  | .crc16 bytes offset length => [0] ++ putCount offset ++ putCount length ++ putSeq bytes
  | .feed chunk => [1] ++ putSeq chunk
  | .parse F => [2] ++ putSeq F
  | .build version id t content => [3] ++ [version] ++ be16 t ++ putId id ++ putContent content
  | .dispatch f now => [4] ++ putParsed f ++ le32 now
  | .rx chunk nows => [5] ++ putSeq chunk ++ putCount nows.length ++ putWords nows

/-- How many operand bytes an operation has when all of them are zero (the layout of the file's header): CRC16 three
counts; FEED and PARSE one; BUILD version, type, the 20-byte id with its count, the form byte; DISPATCH the form byte,
the record (version, id, deviceId, type, content, raw, flag) and NOW; RX two counts. -/
def zeroOperandBytes (selector : Nat) : Nat :=
  match selector with
  | 0 => 3
  | 1 => 1
  | 2 => 1
  | 3 => 1 + 2 + 21 + 1
  | 4 => 1 + (1 + 21 + 1 + 2 + 1 + 1 + 1) + 4
  | 5 => 2
  | _ => 0

/-- The free fields of a frame all of whose operands are zero: version and id zero, content empty. The checksum and the
footer are what R60 says they are in a frame of that type (log 4). -/
def zeroWire (t : U16) : WireFrame :=
  { version := 0
    deviceIdRaw := List.replicate idLen 0
    content := []
    checksum := crcRange (frameBody 0 (List.replicate idLen 0) t []) 0 contentOff
    footer0 := footByte0
    footer1 := footByte1 }

/-- The command a word of spec/opcode_table.json stands for, operands zero: an operation's row has a selector of one byte,
a frame row the 16-bit message type, stored big-endian at offset 25 of a frame (log 4). A number of more bits is no word of the table: no bytes. -/
def tableBytes (nbits w : Nat) : Bytes :=
  if 1 ≤ nbits ∧ nbits ≤ 8 then BitVec.ofNat 8 w :: List.replicate (zeroOperandBytes w) 0
  else if w < 2 ^ 16 then frameBytes (BitVec.ofNat 16 w) (zeroWire (BitVec.ofNat 16 w))
  else []

/-- The instruction the decoder reads from a word of spec/opcode_table.json. -/
def decodeTableWord (nbits w : Nat) : Option Instr :=
  match decode (tableBytes nbits w) with
  | .ok i => some i
  | .error _ => none

end Sys2Proof
end

