-- ==== Sys2Proof/Machine/State.lean ====
section
/-! DEFINITION. The machine's state as plain data, its outputs, and the reasons a step stops (10_state.md; INVENTORY.md,
State). -/

namespace Sys2Proof.Machine

/-- The kinds of a discard (R118). -/
inductive DiscardKind where
  | PREFIX
  | NOMARKER
  | SPURIOUS
deriving DecidableEq, Repr

/-- An element of FEED's output list (R31, R118). -/
inductive Item where
  | frame (bytes : Bytes)
  | discard (kind : DiscardKind) (bytes : Bytes)
deriving DecidableEq, Repr

/-- An element of RX's output list (R192): DISCARDED, INVALID, PARSED(p, r), where `none` is "no reply". -/
inductive RxResult where
  | discarded (kind : DiscardKind) (bytes : Bytes)
  | invalid (bytes : Bytes)
  | parsed (p : Frame) (r : Option Bytes)
deriving DecidableEq, Repr

/-- What one operation returns to the host (R67, column "outputs"). A received frame (the frame rows) returns the RX
result of that one frame. -/
inductive Result where
  | crc (v : U16)
  | items (l : List Item)
  | parse (p : ParseResult)
  | bytes (b : Bytes)
  | reply (r : Option Bytes)
  | rx (l : List RxResult)
deriving DecidableEq, Repr

/-- What the host does to the front end: it invokes an operation on a connection (the command's bytes are read by
Decode.lean), or the connection ends (R33, R230, R233; log 2, log 9). -/
inductive HostEvent where
  | invoke (conn : Nat) (command : Bytes)
  | close (conn : Nat)
deriving DecidableEq, Repr

/-- The BUF of every reassembler instance (R23, R34): (connection, byte sequence) pairs. A connection that is not listed
has `BUF = []`, what a new instance holds (R33, D14; log 8). -/
abbrev Memory := List (Nat × Bytes)

/-- The canonical form: connections strictly rising, no entry equal to what an unlisted connection reads as. -/
abbrev Memory.wf (m : Memory) : Prop :=
  m.Pairwise (fun p q => p.1 < q.1) ∧ ∀ p ∈ m, p.2 ≠ []

/-- The machine's state. `mem` is the spec's storage (R20; TABLE is a constant, R22); the others are the model's own
(INVENTORY.md, State). -/
structure State where
  /-- `BUF` of every instance (R23, R34) -/
  mem : Memory
  /-- the connection whose event is being handled -/
  conn : Nat
  /-- the host's events not handled yet, oldest first (log 2) -/
  pending : List HostEvent
  /-- how many times the wall clock has been drawn (R179). DESIGN CHOICE: one clock and one counter serve all connections,
  so that a draw for one moves on the index of the next draw for another (R50 leaves it open; log 10) -/
  draws : Nat
  /-- what the handled operations have returned to the host, in order; read by no operation (R31; log 12) -/
  returned : List (Nat × Result)
deriving DecidableEq, Repr

/-- Faults: there are none. "No operation traps" (R11), "there is no trap entry" (R211), "Nothing traps" (R66): every
condition of R201 is an ordinary result or a refusal (log 19). -/
inductive Fault where
deriving DecidableEq, Repr

/-- Why a step is refused: R12's *refused* ("a model should give it no step or a named refusal, never a value"). -/
inductive Refusal where
  /-- An arm of exec that has no meaning yet. Safe: no step is taken. (Every arm has its meaning.) -/
  | notModelled (mnemonic : String)
  /-- CRC16 on a range outside its input (R97(b), R208, D9, I8). Raised by CRC16 only. Safe: no value is given. -/
  | crcRange (offset length available : Nat)
  /-- BUILD with an id that is not of 20 bytes (R162, D10, I9). Raised by BUILD, and by a DISPATCH whose operand is no
  Frame record because its id is not of 20 bytes. Safe. -/
  | buildId (idLength : Nat)
  /-- BUILD with a content over 65504 bytes (R162, D10, I9). Raised by BUILD only. Safe. -/
  | buildContent (contentLength : Nat)
  /-- DISPATCH given `invalid` (I10, R175). Raised by DISPATCH only. Safe. -/
  | dispatchInvalid
  /-- The host's bytes are no command (log 3, log 18): the spec knows the operations of R67 only. Raised by step, never by
  an instruction. Safe. -/
  | badCommand (e : DecodeError)
deriving DecidableEq, Repr

/-- The machine right after reset: "Reset of the front end is the creation of its instances" with every `BUF = []`
(R33, R230). The host has invoked nothing yet (log 2). -/
def State.reset : State :=
  { mem := [], conn := 0, pending := [], draws := 0, returned := [] }

/-- What one step or one instruction answers. -/
abbrev StepOutcome := Host.Outcome State Fault Refusal

end Sys2Proof.Machine
end

