-- ==== Sys2Proof/Machine/Ops.lean ====
section
/-! DEFINITION. The named operations over State that the meanings share: reading and writing the BUF of an instance,
and returning a result to the host.

There is no exception entry and no return from one to write here: "There is no trap entry: no state is saved, no mode or
mask changes, no vector or handler address exists, and control goes nowhere but back to the host with the result"
(60_exceptions.md R211, R212). What stands in its place is `State.deliver`, the one way an operation reports anything
(R200). -/

namespace Sys2Proof.Machine

/-- The BUF of connection `c`; `[]` where none is listed (R33). -/
def Memory.read (c : Nat) : Memory → Bytes
  | [] => []
  | (k, b) :: rest => if k = c then b else Memory.read c rest

/-- `BUF <- v` of connection `c` (R11), the canonical form kept: an empty BUF is not listed. -/
def Memory.write (c : Nat) (v : Bytes) : Memory → Memory
  | [] => if v = [] then [] else [(c, v)]
  | (k, b) :: rest =>
    if k < c then (k, b) :: Memory.write c v rest
    else if k = c then (if v = [] then rest else (c, v) :: rest)
    else if v = [] then (k, b) :: rest
    else (c, v) :: (k, b) :: rest

/-- `BUF` of the instance an operation is invoked on. -/
def State.buf (s : State) : Bytes := Memory.read s.conn s.mem

/-- `BUF <- v` of the instance an operation is invoked on. -/
def State.setBuf (s : State) (v : Bytes) : State := { s with mem := Memory.write s.conn v s.mem }

/-- The operation returns `r` to the host that invoked it (R200). -/
def State.deliver (s : State) (r : Result) : State :=
  { s with returned := s.returned ++ [(s.conn, r)] }

/-- The wall clock has been drawn `n` times in all, for whichever connections (R179; log 10). -/
def State.setDraws (s : State) (n : Nat) : State := { s with draws := n }

/-- Event handling begins: connection `c` is the one acted for, `rest` is what remains to be handled. -/
def State.begin (s : State) (c : Nat) (rest : List HostEvent) : State :=
  { s with conn := c, pending := rest }

/-- The connection ends: its instance and its BUF are discarded whole, and nothing is reported (R33, R233, D19; log 9). -/
def State.closeConn (s : State) (c : Nat) (rest : List HostEvent) : State :=
  { s with mem := Memory.write c [] s.mem, pending := rest }

end Sys2Proof.Machine
end

