-- ==== Sys2Proof/Machine/CrcUnit.lean ====
section
/-! DEFINITION. The operation CRC16 as the host invokes it (40_crc.md R95, 30_encoding.md R67 selector 0). -/

namespace Sys2Proof.Machine

/-- CRC16 (R95): the value for an in-range range; refused otherwise (R97(b), D9). -/
def execCrc16 (bytes : Bytes) (offset length : Nat) (s : State) : StepOutcome :=
  match crc16 bytes offset length with
  | some v => .next (s.deliver (.crc v))
  | none => .refused (.crcRange offset length bytes.length)

end Sys2Proof.Machine
end

