-- ==== Sys2Proof/Machine/Encoder.lean ====
section
/-! DEFINITION. The response encoder (43_encoder.md). -/

namespace Sys2Proof.Machine

/-- The frame BUILD composes when its preconditions hold (R160, R161): the body, its CRC little-endian, the footer. -/
def composed (version : Byte) (id : Bytes) (messageType : U16) (content : Bytes) : Bytes :=
  frameBody version id messageType content ++
    le16 (crcRange (frameBody version id messageType content) 0 (contentOff + content.length)) ++
    [footByte0, footByte1]

/-- `BUILD(version, id, type, content)` (R160); refused by R162's preconditions. -/
def build (version : Byte) (id : Bytes) (messageType : U16) (content : Bytes) : Except Refusal Bytes :=
  if id.length ≠ idLen then .error (.buildId id.length)
  else if contentMax < content.length then .error (.buildContent content.length)
  else .ok (composed version id messageType content)

/-- BUILD (R160); `content` absent means empty (R70). -/
def execBuild (version : Byte) (id : Bytes) (messageType : U16) (content : Option Bytes) (s : State) :
    StepOutcome :=
  match build version id messageType (contentOrEmpty content) with
  | .ok b => .next (s.deliver (.bytes b))
  | .error r => .refused r

end Sys2Proof.Machine
end

