-- ==== Sys2Proof/Machine/Flags.lean ====
section
/-! DEFINITION. The only flag, `checksumValid` (10_state.md R25, 42_parser.md R147): a field of PARSE's result. -/

namespace Sys2Proof.Machine

/-- `checksumValid` of a frame `F` of `n >= 31` bytes: the stored checksum `LE16(F, n-4)` equals `CRC16(F, 0, n-4)`
(R147). -/
def checksumFlag (F : Bytes) : Bool :=
  decide (readLE16 F (F.length - 4) = crcRange F 0 (F.length - 4))

end Sys2Proof.Machine
end

