-- ==== Sys2Proof/Machine/Parser.lean ====
section
/-! DEFINITION. The Frame Parser (42_parser.md). -/

namespace Sys2Proof.Machine

/-- The decoded device id: the bytes before the first NUL, all of them where there is none (R146). -/
def deviceIdOf (raw : Bytes) : Bytes := raw.takeWhile (fun b => b ≠ 0)

/-- The Frame record of a byte sequence that passed both structural tests (R140, R143 to R150). -/
def frameOf (F : Bytes) : Frame :=
  { version := byteAt F 4
    deviceIdRaw := slice F 5 25
    deviceId := deviceIdOf (slice F 5 25)
    messageType := readBE16 F 25
    content := slice F contentOff (F.length - 4)
    raw := F
    checksumValid := checksumFlag F }

/-- `PARSE(F)` (R140): the length test (R141), then declared length against presented length (R142), then the fields. -/
def parse (F : Bytes) : ParseResult :=
  if F.length < overhead then .invalid
  else if (readLE16 F 2).toNat ≠ F.length then .invalid
  else .frame (frameOf F)

/-- PARSE (R140): total, no state read or written. -/
def execParse (frameBytes : Bytes) (s : State) : StepOutcome :=
  .next (s.deliver (.parse (parse frameBytes)))

end Sys2Proof.Machine
end

