-- ==== Sys2Proof/Machine/Dispatcher.lean ====
section
/-! DEFINITION. The Response Dispatcher (44_dispatcher.md): one rule per message type, the lookup over them, and the
operation. Every rule takes the Frame record and `NOW` and answers a reply, or `none` for "no reply"; it is refused only
where BUILD is (R162). -/

namespace Sys2Proof.Machine

/-- A reply of type `t` to the request `f`: the request's version and its 20 raw id bytes (R178, R165, D11). -/
def replyTo (f : Frame) (t : U16) (content : Bytes) : Except Refusal (Option Bytes) :=
  match build f.version f.deviceIdRaw t content with
  | .ok b => .ok (some b)
  | .error r => .error r

/-- The "accepted" marker and the zero field of a LOGIN reply (R64, R177). -/
def loginAccepted : Bytes := [0xFF, 0xFF, 0xFF, 0xFF, 0x00, 0x00]

/-- The timestamp of a LOGIN reply: the device's own clock, or `NOW` when the content is shorter than 8 bytes (R177). -/
def loginTimestamp (content : Bytes) (now : U32) : Bytes :=
  if 8 ≤ content.length then slice content 4 8 else le32 now

/-- LOGIN (R177). -/
def replyLogin (f : Frame) (now : U32) : Except Refusal (Option Bytes) :=
  replyTo f typeLoginReply (loginAccepted ++ loginTimestamp f.content now)

/-- LOGOUT: no reply (R183). -/
def replyLogout (_ : Frame) (_ : U32) : Except Refusal (Option Bytes) := .ok none

/-- HEARTBEAT (R180). -/
def replyHeartbeat (f : Frame) (_ : U32) : Except Refusal (Option Bytes) :=
  replyTo f typeHeartbeatReply []

/-- GPS: no reply (R184). -/
def replyGps (_ : Frame) (_ : U32) : Except Refusal (Option Bytes) := .ok none

/-- PID data: no reply (R185). -/
def replyPid (_ : Frame) (_ : U32) : Except Refusal (Option Bytes) := .ok none

/-- ALARM: the alarm index echoed, no reply when the content is shorter than 4 bytes (R182). -/
def replyAlarm (f : Frame) (_ : U32) : Except Refusal (Option Bytes) :=
  if 4 ≤ f.content.length then replyTo f typeAlarmReply (slice f.content 0 4) else .ok none

/-- HEARTBEAT_LEGACY: the primary heartbeat's reply, type `0x9003` (R181). -/
def replyHeartbeatLegacy (f : Frame) (_ : U32) : Except Refusal (Option Bytes) :=
  replyTo f typeHeartbeatReply []

/-- LOGIN_REPLY sent by a peer: no reply (R186). -/
def replyLoginReply (_ : Frame) (_ : U32) : Except Refusal (Option Bytes) := .ok none

/-- HEARTBEAT_REPLY sent by a peer: no reply (R186). -/
def replyHeartbeatReply (_ : Frame) (_ : U32) : Except Refusal (Option Bytes) := .ok none

/-- ALARM_REPLY sent by a peer: no reply (R186). -/
def replyAlarmReply (_ : Frame) (_ : U32) : Except Refusal (Option Bytes) := .ok none

/-- Every other type: no reply (R186, R206). -/
def replyOther (_ : Frame) (_ : U32) : Except Refusal (Option Bytes) := .ok none

/-- `DISPATCH(f, NOW)` (R175): "a pure lookup over message type", all 16 bits matched (R63). -/
def dispatch (f : Frame) (now : U32) : Except Refusal (Option Bytes) :=
  if f.messageType = typeLogin then replyLogin f now
  else if f.messageType = typeHeartbeat then replyHeartbeat f now
  else if f.messageType = typeHeartbeatLegacy then replyHeartbeatLegacy f now
  else if f.messageType = typeAlarm then replyAlarm f now
  else if f.messageType = typeLogout then replyLogout f now
  else if f.messageType = typeGps then replyGps f now
  else if f.messageType = typePid then replyPid f now
  else if f.messageType = typeLoginReply then replyLoginReply f now
  else if f.messageType = typeHeartbeatReply then replyHeartbeatReply f now
  else if f.messageType = typeAlarmReply then replyAlarmReply f now
  else replyOther f now

/-- DISPATCH (R175) with the `NOW` the host gives (R179); `invalid` is no operand (I10). -/
def execDispatch (f : ParseResult) (now : U32) (s : State) : StepOutcome :=
  match f with
  | .invalid => .refused .dispatchInvalid
  | .frame p =>
    match dispatch p now with
    | .ok r => .next (s.deliver (.reply r))
    | .error e => .refused e

end Sys2Proof.Machine
end

