-- ==== Sys2Proof/Machine/Reassembler.lean ====
section
/-! DEFINITION. The Frame Reassembler (41_reassembler.md): one pass of FEED's loop, the loop, and the operation. The
length bounds are an argument (R7, I1). -/

namespace Sys2Proof.Machine

/-- The least index at which two consecutive bytes are both `40` (R113); the marker lies wholly inside the sequence. -/
def findMarker : Bytes → Option Nat
  | [] => none
  | [_] => none
  | a :: b :: rest =>
    if a = markByte ∧ b = markByte then some 0 else (findMarker (b :: rest)).map (· + 1)

/-- How one pass of FEED's loop ends (R111): it stops with the residue, or it appends an item and goes back to S1. -/
inductive Pass where
  | stop (items : List Item) (buf : Bytes)
  | again (item : Item) (buf : Bytes)
deriving DecidableEq, Repr

/-- One pass of FEED's loop on `BUF = buf`: steps S1 to S5 in order (R110 to R116, R210). -/
def pass (b : Bounds) (buf : Bytes) : Pass :=
  if buf.length < rsmMinBytes then .stop [] buf
  else if byteAt buf 0 ≠ markByte ∨ byteAt buf 1 ≠ markByte then
    match findMarker buf with
    | some k => .again (.discard .PREFIX (slice buf 0 k)) (buf.drop k)
    | none =>
      .stop [.discard .NOMARKER (slice buf 0 (buf.length - 1))] (buf.drop (buf.length - 1))
  else if (readLE16 buf 2).toNat < b.lenMin ∨ b.lenMax < (readLE16 buf 2).toNat then
    .again (.discard .SPURIOUS (slice buf 0 2)) (buf.drop 2)
  else if buf.length < (readLE16 buf 2).toNat then .stop [] buf
  else .again (.frame (slice buf 0 (readLE16 buf 2).toNat)) (buf.drop (readLE16 buf 2).toNat)

/-- FEED's loop with at most `n` passes: the items in order and the residue. R119 bounds the passes by
`len(BUF) + 1`, which is what `feed` gives it. -/
def extract (b : Bounds) : Nat → Bytes → List Item × Bytes
  | 0, buf => ([], buf)
  | n + 1, buf =>
    match pass b buf with
    | .stop items rest => (items, rest)
    | .again item rest => (item :: (extract b n rest).1, (extract b n rest).2)

/-- `FEED(chunk)` on `BUF = buf` (R110): append the chunk, then extract until the loop stops. The items and the new
BUF. -/
def feed (b : Bounds) (buf chunk : Bytes) : List Item × Bytes :=
  extract b ((buf ++ chunk).length + 1) (buf ++ chunk)

/-- FEED (R110): reads and writes BUF of the instance it is invoked on, and returns the items. -/
def execFeed (chunk : Bytes) (s : State) : StepOutcome :=
  .next ((s.setBuf (feed frontEndBounds s.buf chunk).2).deliver
    (.items (feed frontEndBounds s.buf chunk).1))

end Sys2Proof.Machine
end

