-- ==== Sys2Proof/Machine/Pipeline.lean ====
section
/-! DEFINITION. The receive pipeline (44_dispatcher.md R191 to R193): what is done with one item, and RX. -/

namespace Sys2Proof.Machine

/-- The next `NOW` (R192: "a supply of NOW values, one taken per dispatched frame"): the host's supply first, then a draw
of the wall clock at `draws`, the count that all connections share (DESIGN CHOICE, log 10). The value, the supply left, and the draws made so far. -/
def nextNow (nows : List U32) (draws : Nat) : U32 × List U32 × Nat :=
  match nows with
  | [] => (Config.wallClock draws, [], draws + 1)
  | n :: rest => (n, rest, draws)

/-- What RX does with one item (R192): a discard is passed on; a frame is parsed and, unless invalid, dispatched. The
result, the supply left and the draws made so far. -/
def rxItem (item : Item) (nows : List U32) (draws : Nat) : Except Refusal (RxResult × List U32 × Nat) :=
  match item with
  | .discard kind bytes => .ok (.discarded kind bytes, nows, draws)
  | .frame F =>
    match parse F with
    | .invalid => .ok (.invalid F, nows, draws)
    | .frame p =>
      match dispatch p (nextNow nows draws).1 with
      | .ok r => .ok (.parsed p r, (nextNow nows draws).2)
      | .error e => .error e

/-- RX's loop over the items of one FEED, in order (R192): the results and the draws made so far. -/
def rxItems : List Item → List U32 → Nat → Except Refusal (List RxResult × Nat)
  | [], _, draws => .ok ([], draws)
  | item :: rest, nows, draws =>
    match rxItem item nows draws with
    | .error e => .error e
    | .ok (r, nows', draws') =>
      match rxItems rest nows' draws' with
      | .error e => .error e
      | .ok (rs, d) => .ok (r :: rs, d)

/-- RX (R192): FEED, then PARSE and DISPATCH for each FRAME item, the results in stream order (R193). -/
def execRx (chunk : Bytes) (nows : List U32) (s : State) : StepOutcome :=
  match rxItems (feed frontEndBounds s.buf chunk).1 nows s.draws with
  | .ok (rs, d) =>
    .next (((s.setBuf (feed frontEndBounds s.buf chunk).2).setDraws d).deliver (.rx rs))
  | .error e => .refused e

/-- One complete frame received behind the reassembler, with the dispatcher's rule for its type (R191; log 4): PARSE; an
`invalid` frame is reported and skipped (R204); otherwise the rule answers, with a fresh draw of the wall clock (R179) at the count that all connections share (DESIGN
CHOICE, log 10). -/
def receive (raw : Bytes) (rule : Frame → U32 → Except Refusal (Option Bytes)) (s : State) : StepOutcome :=
  match parse raw with
  | .invalid => .next (s.deliver (.rx [.invalid raw]))
  | .frame p =>
    match rule p (Config.wallClock s.draws) with
    | .ok r => .next ((s.setDraws (s.draws + 1)).deliver (.rx [.parsed p r]))
    | .error e => .refused e

end Sys2Proof.Machine
end

