-- ==== Sys2Proof/Machine/Frames.lean ====
section
/-! DEFINITION. The eleven frame-type rows of the opcode table as instructions: one complete frame of the type, received
behind the reassembler, is parsed and answered by its own rule (44_dispatcher.md R177 to R186; log 4). -/

namespace Sys2Proof.Machine

/-- LOGIN (R177). -/
def execLogin (w : WireFrame) (s : State) : StepOutcome :=
  receive (frameBytes typeLogin w) replyLogin s

/-- LOGOUT (R183). -/
def execLogout (w : WireFrame) (s : State) : StepOutcome :=
  receive (frameBytes typeLogout w) replyLogout s

/-- HEARTBEAT (R180). -/
def execHeartbeat (w : WireFrame) (s : State) : StepOutcome :=
  receive (frameBytes typeHeartbeat w) replyHeartbeat s

/-- GPS (R184). -/
def execGps (w : WireFrame) (s : State) : StepOutcome :=
  receive (frameBytes typeGps w) replyGps s

/-- PID (R185). -/
def execPid (w : WireFrame) (s : State) : StepOutcome :=
  receive (frameBytes typePid w) replyPid s

/-- ALARM (R182). -/
def execAlarm (w : WireFrame) (s : State) : StepOutcome :=
  receive (frameBytes typeAlarm w) replyAlarm s

/-- HEARTBEAT_LEGACY (R181). -/
def execHeartbeatLegacy (w : WireFrame) (s : State) : StepOutcome :=
  receive (frameBytes typeHeartbeatLegacy w) replyHeartbeatLegacy s

/-- LOGIN_REPLY arriving from a peer (R186). -/
def execLoginReply (w : WireFrame) (s : State) : StepOutcome :=
  receive (frameBytes typeLoginReply w) replyLoginReply s

/-- HEARTBEAT_REPLY arriving from a peer (R186). -/
def execHeartbeatReply (w : WireFrame) (s : State) : StepOutcome :=
  receive (frameBytes typeHeartbeatReply w) replyHeartbeatReply s

/-- ALARM_REPLY arriving from a peer (R186). -/
def execAlarmReply (w : WireFrame) (s : State) : StepOutcome :=
  receive (frameBytes typeAlarmReply w) replyAlarmReply s

/-- OTHER: a frame of any type without a row of its own (R186, R206). -/
def execOther (t : U16) (w : WireFrame) (s : State) : StepOutcome :=
  receive (frameBytes t w) replyOther s

end Sys2Proof.Machine
end

