-- ==== Sys2Proof/Machine/Dispatch.lean ====
section
/-! DEFINITION. One arm per constructor of Instr. -/

namespace Sys2Proof.Machine

def exec (i : Instr) (s : State) : Host.Outcome State Fault Refusal :=
  match i with
  | .login w => Sys2Proof.Machine.execLogin w s
  | .logout w => Sys2Proof.Machine.execLogout w s
  | .heartbeat w => Sys2Proof.Machine.execHeartbeat w s
  | .gps w => Sys2Proof.Machine.execGps w s
  | .pid w => Sys2Proof.Machine.execPid w s
  | .alarm w => Sys2Proof.Machine.execAlarm w s
  | .heartbeatLegacy w => Sys2Proof.Machine.execHeartbeatLegacy w s
  | .loginReply w => Sys2Proof.Machine.execLoginReply w s
  | .heartbeatReply w => Sys2Proof.Machine.execHeartbeatReply w s
  | .alarmReply w => Sys2Proof.Machine.execAlarmReply w s
  | .other t w => Sys2Proof.Machine.execOther t w s
  | .crc16 bytes offset length => Sys2Proof.Machine.execCrc16 bytes offset length s
  | .feed chunk => Sys2Proof.Machine.execFeed chunk s
  | .parse frameBytes => Sys2Proof.Machine.execParse frameBytes s
  | .build version id t content => Sys2Proof.Machine.execBuild version id t content s
  | .dispatch f now => Sys2Proof.Machine.execDispatch f now s
  | .rx chunk nows => Sys2Proof.Machine.execRx chunk nows s

end Sys2Proof.Machine
end

