-- ==== Sys2Proof/Machine/Fetch.lean ====
section
/-! DEFINITION. What is done with the bytes of one command (log 2, log 18). -/

namespace Sys2Proof.Machine

/-- The bytes begin with the header marker, so that the host presents a frame (R60). -/
def startsWithMarker (S : Bytes) : Bool := decide (byteAt S 0 = markByte ∧ byteAt S 1 = markByte)

/-- Runs one command: the instruction its bytes decode to; bytes presented as a frame that PARSE finds `invalid` are
reported as such and skipped (R192, R204); anything else is no command. -/
def runCommand (command : Bytes) (s : State) : StepOutcome :=
  match decode command with
  | .ok i => exec i s
  | .error e =>
    if startsWithMarker command ∧ parse command = .invalid then .next (s.deliver (.rx [.invalid command]))
    else .refused (.badCommand e)

end Sys2Proof.Machine
end

