-- ==== Sys2Proof/Machine/Step.lean ====
section
/-! DEFINITION. The step: one event of the host (20_memory.md R45: "Every operation is one atomic transition"). -/

namespace Sys2Proof.Machine

/-- Handles the oldest event of the host. With none, the front end stays as it is: it "acts only when the host invokes an
operation" (R209, R219, R234). -/
def step (s : State) : Host.Outcome State Fault Refusal :=
  match s.pending with
  | [] => .next s
  | .close c :: rest => .next (s.closeConn c rest)
  | .invoke c command :: rest => runCommand command (s.begin c rest)

/-- `s` with the command of a word of spec/opcode_table.json as the host's next event, on the connection last acted for:
the step fetches from the head of `pending` (log 2). -/
def State.withFetchWord (s : State) (nbits w : Nat) : State :=
  { s with pending := .invoke s.conn (tableBytes nbits w) :: s.pending }

end Sys2Proof.Machine
end

