-- ==== Sys2Proof/Safety.lean ====
section
/-! DEFINITION. The terms statements are made in: what a marker, a valid frame and the residue shapes are, the machine's
invariant, the frames and bytes of an item list, and FEED over several chunks. -/

namespace Sys2Proof.Machine

/-- Two consecutive bytes `40 40` stand at index `k` (R113). -/
def MarkerAt (S : Bytes) (k : Nat) : Prop := S[k]? = some 0x40 ∧ S[k + 1]? = some 0x40

/-- No two consecutive bytes are `40 40`. -/
def NoMarker (S : Bytes) : Prop := ∀ k, ¬ MarkerAt S k

/-- "`F[0] = F[1] = 0x40`, `LE16(F, 2) = len(F)`", and the length inside the bounds: what a FRAME item is (R116, Q7), and
what R122 asks of a valid frame. -/
def ValidFrame (b : Bounds) (F : Bytes) : Prop :=
  4 ≤ F.length ∧ MarkerAt F 0 ∧ (readLE16 F 2).toNat = F.length ∧ b.lenMin ≤ F.length ∧ F.length ≤ b.lenMax

/-- The shapes BUF has between operations (R24): fewer than four bytes, or a partial frame with an accepted header. -/
def ResidueShape (b : Bounds) (buf : Bytes) : Prop :=
  buf.length < 4 ∨
    (4 ≤ buf.length ∧ MarkerAt buf 0 ∧ b.lenMin ≤ (readLE16 buf 2).toNat ∧
      (readLE16 buf 2).toNat ≤ b.lenMax ∧ buf.length < (readLE16 buf 2).toNat)

/-- The machine's invariant: the memory in canonical form, and every instance's BUF in a residue shape (R24). A run is
safe as long as it holds. -/
def State.Inv (s : State) : Prop :=
  s.mem.wf ∧ ∀ p ∈ s.mem, ResidueShape frontEndBounds p.2

/-- `bytes(item)` (R120). -/
def Item.bytes : Item → Bytes
  | .frame b => b
  | .discard _ b => b

/-- The FRAME item's bytes, if it is one. -/
def Item.frame? : Item → Option Bytes
  | .frame b => some b
  | .discard _ _ => none

/-- `frames(items)` (R70): the document's `list<Frame bytes>`. -/
def framesOf (items : List Item) : List Bytes := items.filterMap Item.frame?

/-- FEED of several chunks in order on one instance: the item list of each FEED, and the last residue. -/
def feedEach (b : Bounds) : Bytes → List Bytes → List (List Item) × Bytes
  | buf, [] => ([], buf)
  | buf, chunk :: chunks =>
    ((feed b buf chunk).1 :: (feedEach b (feed b buf chunk).2 chunks).1,
      (feedEach b (feed b buf chunk).2 chunks).2)

/-- An item that RX parses into a Frame record and dispatches (R192). -/
def Item.dispatched : Item → Bool
  | .frame F => decide (parse F ≠ .invalid)
  | .discard _ _ => false

/-- How many frames RX has dispatched when it comes to item `k` (R192: "one taken per dispatched frame"). -/
def dispatchedBefore (items : List Item) (k : Nat) : Nat :=
  ((items.take k).filter Item.dispatched).length

/-- The `NOW` of the `j`-th dispatched frame: the host's supply, then draws of the wall clock from `draws` on (log 10). -/
def nowAt (nows : List U32) (draws j : Nat) : U32 :=
  nows.getD j (Config.wallClock (draws + (j - nows.length)))

/-- From `s` to `t` the BUF of the acting connection becomes `residue`; no other connection's BUF, and none of the
connection, the events and the log of `s`'s own, but for what is returned and drawn, changes. -/
def OnlyBufBecomes (s t : State) (residue : Bytes) : Prop :=
  t.mem.wf ∧ Memory.read s.conn t.mem = residue ∧ (∀ c, c ≠ s.conn → Memory.read c t.mem = Memory.read c s.mem) ∧
    t.conn = s.conn ∧ t.pending = s.pending

/-- `out` is a well-formed frame of type `t` with this content that carries the request's version and raw id (R178, R189,
R164). -/
def IsReply (f : Frame) (t : U16) (content out : Bytes) : Prop :=
  out.length = 31 + content.length ∧ out.take 2 = [0x40, 0x40] ∧ out.drop (29 + content.length) = [0x0D, 0x0A] ∧
    ∃ g, parse out = .frame g ∧ g.version = f.version ∧ g.deviceIdRaw = f.deviceIdRaw ∧ g.messageType = t ∧
      g.content = content ∧ g.checksumValid = true

end Sys2Proof.Machine

namespace Sys2Proof

/-- The frame-type rows of the opcode table. -/
def Instr.isFrameRow : Instr → Bool
  | .login _ => true
  | .logout _ => true
  | .heartbeat _ => true
  | .gps _ => true
  | .pid _ => true
  | .alarm _ => true
  | .heartbeatLegacy _ => true
  | .loginReply _ => true
  | .heartbeatReply _ => true
  | .alarmReply _ => true
  | .other _ _ => true
  | .crc16 _ _ _ => false
  | .feed _ => false
  | .parse _ => false
  | .build _ _ _ _ => false
  | .dispatch _ _ => false
  | .rx _ _ => false

end Sys2Proof
end

