-- ==== Sys2Proof/Certificates/Slice0/Obligations.lean ====
section
/-! DEFINITION. The statements for the provers. Each docstring names the rule of spec/ it formalises, or says that it rests
on an inference of the spec or on a choice of the model. -/

open Sys2Proof Sys2Proof.Machine

/-! ## Encoding -/

/-- Every well-formed instruction is read back from its bytes. The wire frames are R60's and R61's; the layout of an
operation's operands is the model's own (log 3). -/
def Obligations.DecodeInvertsEncode : Prop :=
  ∀ i : Instr, i.wellFormed = true → decode (encode i) = .ok i

/-- Every command that decodes is well-formed and is the bytes of what it decodes to: no two commands mean one
instruction. The layout of an operation's operands is the model's own (log 3). -/
def Obligations.EncodeInvertsDecode : Prop :=
  ∀ (S : Bytes) (i : Instr), decode S = .ok i → i.wellFormed = true ∧ encode i = S

/-- A few commands written out byte by byte: the HEARTBEAT frame of version 00 and id twenty 00 (43_encoder.md section 2),
a FEED of the one byte 40, a CRC16 of no bytes, and a selector that is none. -/
def Obligations.KnownCommandsDecode : Prop :=
  decode ([0x40, 0x40, 0x1F, 0x00, 0x00] ++ List.replicate 20 0 ++ [0x10, 0x03, 0xA4, 0x1F, 0x0D, 0x0A]) =
      .ok (.heartbeat ⟨0, List.replicate 20 0, [], 0x1FA4, 0x0D, 0x0A⟩) ∧
    decode [0x01, 0x01, 0x40] = .ok (.feed [0x40]) ∧
    decode [0x00, 0, 0, 0] = .ok (.crc16 [] 0 0) ∧
    decode [0x06] = .error (.unknownSelector 0x06)

/-! ## The step -/

/-- When the host's next event invokes a command that decodes to a well-formed instruction, the step is that instruction's
execution, on the connection named, with the event taken off (log 2). -/
def Obligations.StepRunsDecodedCommand : Prop :=
  ∀ (s : State) (c : Nat) (command : Bytes) (rest : List HostEvent) (i : Instr),
    s.pending = .invoke c command :: rest → decode command = .ok i → i.wellFormed = true →
    step s = exec i { s with conn := c, pending := rest }

/-- Bytes presented as a frame that fail PARSE's length tests are reported as INVALID and skipped, and nothing else
changes (60_exceptions.md section 2, R204). That a declared length other than the presented one is invalid is the spec's
decision D6 (log 15), and that such bytes may be presented is the model's choice (log 18). -/
def Obligations.StepReportsInvalidFrame : Prop :=
  ∀ (s : State) (c : Nat) (F : Bytes) (rest : List HostEvent),
    s.pending = .invoke c F :: rest → F.take 2 = [0x40, 0x40] →
    (F.length < 31 ∨ (readLE16 F 2).toNat ≠ F.length) →
    step s = .next
      { s with conn := c, pending := rest, returned := s.returned ++ [(c, .rx [.invalid F])] }

/-- The end of a connection discards its BUF and reports nothing; no other instance is touched (R33, R230; D19 is the
spec's own decision, the event is the model's, log 9). -/
def Obligations.StepClosesConnection : Prop :=
  ∀ (s : State) (c : Nat) (rest : List HostEvent),
    s.mem.wf → s.pending = .close c :: rest →
    ∃ m, step s = .next { s with mem := m, pending := rest } ∧ m.wf ∧ Memory.read c m = [] ∧
      ∀ d, d ≠ c → Memory.read d m = Memory.read d s.mem

/-- With no event to handle the front end stays as it is (60_exceptions.md sections 3 and 4; log 2). -/
def Obligations.StepWithoutEventsIdles : Prop :=
  ∀ s : State, s.pending = [] → step s = .next s

/-- After reset every instance has an empty BUF (R33, decision D14). The other fields are the model's own, their values its
choices (log 2, log 10, log 12). -/
def Obligations.ResetLeavesEveryBufferEmpty : Prop :=
  (∀ c, Memory.read c State.reset.mem = []) ∧ State.reset.pending = [] ∧ State.reset.returned = [] ∧
    step State.reset = .next State.reset

/-! ## CRC16 -/

/-- CRC16 of an in-range range returns what the bit-serial form gives, and changes nothing else (40_crc.md section 5, the
spec's own inference "returns the value of rule R95"). -/
def Obligations.Crc16ReturnsSerialForm : Prop :=
  ∀ (S : Bytes) (offset length : Nat) (s : State), offset + length ≤ S.length →
    exec (.crc16 S offset length) s =
      .next { s with returned := s.returned ++ [(s.conn, .crc (crcRangeSerial S offset length))] }

/-- CRC16 equals the reflected form and its byte-table variant on every in-range range (40_crc.md section 5, the spec's own
inference). -/
def Obligations.Crc16EqualsReflectedForms : Prop :=
  ∀ (S : Bytes) (offset length : Nat), offset + length ≤ S.length →
    crc16 S offset length = some (crcRangeReflected S offset length) ∧
      crc16 S offset length = some (crcRangeReflectedTable S offset length)

/-- A range that reaches past the input is refused (40_crc.md section 4, corner case (b), decision D9). -/
def Obligations.Crc16OutOfRangeRefused : Prop :=
  ∀ (S : Bytes) (offset length : Nat) (s : State), S.length < offset + length →
    exec (.crc16 S offset length) s = .refused (.crcRange offset length S.length)

/-- The checksum-appended property: appending the right checksum gives 0x0F47, and appending any other does not, so
the two tests of a frame agree (40_crc.md section 4, the spec's own inference). -/
def Obligations.Crc16ResidueTellsTheChecksum : Prop :=
  ∀ (M : Bytes) (C : U16),
    crc16 (M ++ le16 C) 0 (M.length + 2) = some 0x0F47 ↔ crc16 M 0 M.length = some C

/-- An offset selects and does not seed; the empty range gives 0x0000 (40_crc.md section 4, corner cases (a), (c), (f)). -/
def Obligations.Crc16OffsetSelects : Prop :=
  (∀ A M B : Bytes, crc16 (A ++ M ++ B) A.length M.length = crc16 M 0 M.length) ∧
    ∀ (S : Bytes) (offset : Nat), offset ≤ S.length → crc16 S offset 0 = some 0x0000

/-! ## FEED -/

/-- FEED always answers: it returns its items, keeps the residue in BUF, loses no byte and invents none, and touches no
other instance (41_reassembler.md section 4: conservation is the spec's own inference). -/
def Obligations.FeedConservesBytes : Prop :=
  ∀ (chunk : Bytes) (s : State), s.mem.wf →
    ∃ items residue t, exec (.feed chunk) s = .next t ∧
      feed frontEndBounds s.buf chunk = (items, residue) ∧
      OnlyBufBecomes s t residue ∧ t.draws = s.draws ∧
      t.returned = s.returned ++ [(s.conn, .items items)] ∧
      s.buf ++ chunk = items.flatMap Item.bytes ++ residue

/-- The five steps of FEED, each as an equation of the whole extraction, for any bounds R7 admits (41_reassembler.md section
2). That a dropped run goes back to step S1 is the spec's decision D2 (log 14), and that both bounds are accepted lengths its
decision D1 (log 6). -/
def Obligations.FeedFollowsTheFiveSteps : Prop :=
  ∀ (b : Bounds) (buf chunk : Bytes), b.Valid →
    (feed b buf chunk = feed b [] (buf ++ chunk)) ∧
    (buf.length < 4 → feed b [] buf = ([], buf)) ∧
    (4 ≤ buf.length → NoMarker buf →
      feed b [] buf = ([.discard .NOMARKER (buf.take (buf.length - 1))], buf.drop (buf.length - 1))) ∧
    (∀ k, 4 ≤ buf.length → 0 < k → MarkerAt buf k → (∀ j, j < k → ¬ MarkerAt buf j) →
      feed b [] buf =
        (.discard .PREFIX (buf.take k) :: (feed b [] (buf.drop k)).1, (feed b [] (buf.drop k)).2)) ∧
    (4 ≤ buf.length → MarkerAt buf 0 →
      ((readLE16 buf 2).toNat < b.lenMin ∨ b.lenMax < (readLE16 buf 2).toNat) →
      feed b [] buf = (.discard .SPURIOUS [0x40, 0x40] :: (feed b [] (buf.drop 2)).1, (feed b [] (buf.drop 2)).2)) ∧
    (∀ L, 4 ≤ buf.length → MarkerAt buf 0 → (readLE16 buf 2).toNat = L → b.lenMin ≤ L → L ≤ b.lenMax →
      (buf.length < L → feed b [] buf = ([], buf)) ∧
      (L ≤ buf.length →
        feed b [] buf = (.frame (buf.take L) :: (feed b [] (buf.drop L)).1, (feed b [] (buf.drop L)).2)))

/-- FEED's loop is over after `len(BUF) + 1` passes: more passes change nothing (41_reassembler.md section 4, the spec's own
inference on termination). -/
def Obligations.FeedPassesAreBounded : Prop :=
  ∀ (b : Bounds) (buf : Bytes) (n : Nat), b.Valid → buf.length + 1 ≤ n →
    extract b n buf = extract b (buf.length + 1) buf

/-- What the items of one FEED look like: a FRAME item begins with the marker and is as long as its bytes 2 and 3 say,
inside the bounds; a PREFIX is a non-empty run without a marker that does not pair with the next byte; a NOMARKER has at
least three bytes and no marker; a SPURIOUS is `40 40` (41_reassembler.md sections 2 and 3). -/
def Obligations.FeedItemsAreWellShaped : Prop :=
  ∀ (b : Bounds) (buf chunk : Bytes) (item : Item), b.Valid → item ∈ (feed b buf chunk).1 →
    (∃ F, item = .frame F ∧ ValidFrame b F) ∨
    (∃ g, item = .discard .PREFIX g ∧ g ≠ [] ∧ NoMarker g ∧ g.getLast? ≠ some 0x40) ∨
    (∃ g, item = .discard .NOMARKER g ∧ 3 ≤ g.length ∧ NoMarker g) ∨
    item = .discard .SPURIOUS [0x40, 0x40]

/-- Whatever BUF held, after a FEED it has a residue shape, and at most `max(3, LEN_MAX - 1)` bytes (10_state.md section 3,
the spec's own inference). -/
def Obligations.FeedLeavesResidueShape : Prop :=
  ∀ (b : Bounds) (buf chunk : Bytes), b.Valid →
    ResidueShape b (feed b buf chunk).2 ∧ (feed b buf chunk).2.length ≤ max 3 (b.lenMax - 1)

/-- Between operations, a FEED of no bytes returns no item and changes nothing but the log of what was returned
(41_reassembler.md section 4, the spec's own inference). -/
def Obligations.FeedOfNothingIsNoOperation : Prop :=
  ∀ s : State, s.Inv →
    exec (.feed []) s = .next { s with returned := s.returned ++ [(s.conn, .items [])] }

/-- A header with an accepted length and too few bytes waits: nothing is returned or discarded (41_reassembler.md section 2,
step 4; the values of the bounds are decision D1, log 6). -/
def Obligations.FeedWaitsForPartialFrame : Prop :=
  ∀ (chunk : Bytes) (s : State), s.mem.wf → 4 ≤ (s.buf ++ chunk).length → MarkerAt (s.buf ++ chunk) 0 →
    8 ≤ (readLE16 (s.buf ++ chunk) 2).toNat → (readLE16 (s.buf ++ chunk) 2).toNat ≤ 2048 →
    (s.buf ++ chunk).length < (readLE16 (s.buf ++ chunk) 2).toNat →
    ∃ t, exec (.feed chunk) s = .next t ∧ OnlyBufBecomes s t (s.buf ++ chunk) ∧ t.draws = s.draws ∧
      t.returned = s.returned ++ [(s.conn, .items [])]

/-- The frames of a stream do not depend on how it is cut into chunks, from any residue (41_reassembler.md section 4, the
spec's own inference). -/
def Obligations.FeedFramesIgnoreChunking : Prop :=
  ∀ (b : Bounds) (buf : Bytes) (chunks : List Bytes), b.Valid → ResidueShape b buf →
    framesOf (feedEach b buf chunks).1.flatten = framesOf (feed b buf chunks.flatten).1

/-- Valid frames, concatenated and cut anywhere, come out exactly, in order, with nothing discarded and nothing left
(41_reassembler.md section 4: the source's chunk-boundary property). -/
def Obligations.FeedRecoversValidFrames : Prop :=
  ∀ (b : Bounds) (frames chunks : List Bytes), b.Valid → (∀ F, F ∈ frames → ValidFrame b F) →
    chunks.flatten = frames.flatten →
    (feedEach b [] chunks).1.flatten = frames.map Item.frame ∧ (feedEach b [] chunks).2 = []

/-- Garbage without `40 40` that does not end in `40` is discarded, observably, and the frame after it comes out; without
the condition a frame can be lost (R123). -/
def Obligations.FeedResyncsAfterGarbage : Prop :=
  (∀ (b : Bounds) (g F : Bytes), b.Valid → g ≠ [] → NoMarker g → g.getLast? ≠ some 0x40 → ValidFrame b F →
    feed b [] (g ++ F) = ([.discard .PREFIX g, .frame F], [])) ∧
  ∃ g F, ValidFrame frontEndBounds F ∧ F ∉ framesOf (feed frontEndBounds [] (g ++ F)).1

/-- The hazard of garbage ending in `40`: a frame of low length byte 08 or more is lost, its bytes being discarded as a
spurious header and a run without marker (70_reset_and_hazards.md section 2, the spec's own inference; bounds of D1, log 6). -/
def Obligations.FeedLosesFrameAfterMarkByte : Prop :=
  ∀ (g X : Bytes), NoMarker g → g.getLast? ≠ some 0x40 → ValidFrame frontEndBounds X →
    8 ≤ (byteAt X 2).toNat → NoMarker (0x40 :: X.drop 2) →
    feed frontEndBounds [] (g ++ [0x40] ++ X) =
      ((if g = [] then [] else [.discard .PREFIX g]) ++
          [.discard .SPURIOUS [0x40, 0x40], .discard .NOMARKER ((0x40 :: X.drop 2).take (X.length - 2))],
        X.drop (X.length - 1))

/-- A run of steps over the host's FEED commands on one connection is FEED of the chunks in order: items returned in
order, the last residue in BUF, no other instance touched (20_memory.md section 5). Chunks are of any
length; the event list and the bytes of a command are the model's choice (log 2, log 3). -/
def Obligations.FeedCommandsRunInOrder : Prop :=
  ∀ (s : State) (c : Nat) (chunks : List Bytes) (rest : List HostEvent), s.mem.wf →
    s.pending = chunks.map (fun ch => HostEvent.invoke c (encode (.feed ch))) ++ rest →
    ∃ t : State, Host.Core.run Sys2Proof.core chunks.length s = Host.Outcome.next t ∧
      Memory.read c t.mem = (feedEach frontEndBounds (Memory.read c s.mem) chunks).2 ∧
      t.returned = s.returned ++
        (feedEach frontEndBounds (Memory.read c s.mem) chunks).1.map (fun items => (c, Result.items items)) ∧
      t.pending = rest ∧ t.draws = s.draws ∧ ∀ d, d ≠ c → Memory.read d t.mem = Memory.read d s.mem

/-- FEEDs on two different instances give the same results and leave the same buffers in either order (20_memory.md
section 5). -/
def Obligations.FeedsOnTwoInstancesCommute : Prop :=
  ∀ (s : State) (c d : Nat) (x y : Bytes), s.mem.wf → c ≠ d →
    ∃ t1 t2 u1 u2 : State, ∃ p q : List Item,
      exec (.feed x) { s with conn := c } = .next t1 ∧ exec (.feed y) { t1 with conn := d } = .next t2 ∧
      exec (.feed y) { s with conn := d } = .next u1 ∧ exec (.feed x) { u1 with conn := c } = .next u2 ∧
      t2.mem = u2.mem ∧
      t2.returned = s.returned ++ [(c, .items p), (d, .items q)] ∧
      u2.returned = s.returned ++ [(d, .items q), (c, .items p)]

/-! ## PARSE -/

/-- Every input of 0 to 30 bytes is invalid; one of 31 bytes that declares 31 is a Frame with empty content (R141). -/
def Obligations.ParseRejectsShortInput : Prop :=
  (∀ (F : Bytes) (s : State), F.length < 31 →
    exec (.parse F) s = .next { s with returned := s.returned ++ [(s.conn, .parse .invalid)] }) ∧
  ∀ (F : Bytes) (s : State), F.length = 31 → (readLE16 F 2).toNat = 31 →
    ∃ f : Frame, f.content = [] ∧
      exec (.parse F) s = .next { s with returned := s.returned ++ [(s.conn, .parse (.frame f))] }

/-- A declared length that is not the presented length is invalid (42_parser.md section 2, decision D6). -/
def Obligations.ParseRejectsLengthMismatch : Prop :=
  ∀ (F : Bytes) (s : State) (lo hi : Byte), F[2]? = some lo → F[3]? = some hi →
    lo.toNat + 256 * hi.toNat ≠ F.length →
    exec (.parse F) s = .next { s with returned := s.returned ++ [(s.conn, .parse .invalid)] }

/-- The fields of the Frame record, each at its offset; the version is any byte (R143, R144, R145, R148, R150). -/
def Obligations.ParseYieldsTheFields : Prop :=
  ∀ (F : Bytes) (s : State), 31 ≤ F.length → (readLE16 F 2).toNat = F.length →
    ∃ f : Frame, ∃ hi lo : Byte,
      exec (.parse F) s = .next { s with returned := s.returned ++ [(s.conn, .parse (.frame f))] } ∧
      F[4]? = some f.version ∧
      f.deviceIdRaw = (F.drop 5).take 20 ∧ f.deviceIdRaw.length = 20 ∧
      F[25]? = some hi ∧ F[26]? = some lo ∧ f.messageType.toNat = hi.toNat * 256 + lo.toNat ∧
      f.content = (F.drop 27).take (F.length - 31) ∧ f.content.length = F.length - 31 ∧
      f.raw = F

/-- The decoded device id is the raw id up to its first NUL, or all of it (42_parser.md section 3, decision D8). -/
def Obligations.ParseDeviceIdStopsAtNul : Prop :=
  ∀ (F : Bytes) (f : Frame), parse F = .frame f →
    (0 : Byte) ∉ f.deviceId ∧ f.deviceId.length ≤ 20 ∧
      (f.deviceIdRaw = f.deviceId ∨ ∃ tail, f.deviceIdRaw = f.deviceId ++ 0 :: tail)

/-- The checksum flag is true exactly when the two bytes four before the end, low byte first, are CRC16 of everything
before them; a mismatch is still a Frame (42_parser.md section 3, 60_exceptions.md section 2). -/
def Obligations.ParseFlagsTheChecksum : Prop :=
  ∀ (F : Bytes) (s : State), 31 ≤ F.length → (readLE16 F 2).toNat = F.length →
    ∃ f : Frame, exec (.parse F) s = .next { s with returned := s.returned ++ [(s.conn, .parse (.frame f))] } ∧
      (f.checksumValid = true ↔
        ∃ C : U16, crc16 F 0 (F.length - 4) = some C ∧ (F.drop (F.length - 4)).take 2 = le16 C)

/-- Neither marker nor footer is examined: two inputs of one length that agree between them parse alike, and their flags
agree when the markers agree too (42_parser.md section 3, decision D7). -/
def Obligations.ParseIgnoresMarkerAndFooter : Prop :=
  ∀ (F G : Bytes) (f : Frame), F.length = G.length →
    (F.drop 2).take (F.length - 4) = (G.drop 2).take (G.length - 4) → parse F = .frame f →
    ∃ g : Frame, parse G = .frame g ∧ g.version = f.version ∧ g.deviceIdRaw = f.deviceIdRaw ∧
      g.deviceId = f.deviceId ∧ g.messageType = f.messageType ∧ g.content = f.content ∧
      (F.take 2 = G.take 2 → g.checksumValid = f.checksumValid)

/-! ## BUILD -/

/-- Where each byte of a built frame comes from; absent content is empty content (R161). -/
def Obligations.BuildLaysOutTheFrame : Prop :=
  ∀ (v : Byte) (id : Bytes) (t : U16) (content : Option Bytes) (s : State),
    id.length = 20 → (content.getD []).length ≤ 65504 →
    ∃ (out : Bytes) (C : U16),
      exec (.build v id t content) s = .next { s with returned := s.returned ++ [(s.conn, .bytes out)] } ∧
      crc16 out 0 (27 + (content.getD []).length) = some C ∧
      out =
        [0x40, 0x40, BitVec.ofNat 8 (31 + (content.getD []).length),
          BitVec.ofNat 8 ((31 + (content.getD []).length) / 256), v] ++ id ++
        [BitVec.ofNat 8 (t.toNat / 256), BitVec.ofNat 8 t.toNat] ++ content.getD [] ++
        [BitVec.ofNat 8 C.toNat, BitVec.ofNat 8 (C.toNat / 256), 0x0D, 0x0A]

/-- An id that is not of 20 bytes, or a content the length field cannot declare, is refused (43_encoder.md section 2,
decision D10). Where both are bad the refusal names the id: an order the spec does not give, the model's choice (log 16). -/
def Obligations.BuildRefusesBadOperands : Prop :=
  ∀ (v : Byte) (id : Bytes) (t : U16) (content : Option Bytes) (s : State),
    (id.length ≠ 20 → exec (.build v id t content) s = .refused (.buildId id.length)) ∧
    (id.length = 20 → 65504 < (content.getD []).length →
      exec (.build v id t content) s = .refused (.buildContent (content.getD []).length))

/-- PARSE of what BUILD composes recovers version, id, type and content, with a valid checksum; the frame has 31 plus the
content's bytes, begins `40 40` and ends `0D 0A` (R164). -/
def Obligations.ParseRecoversBuiltFrame : Prop :=
  ∀ (v : Byte) (id : Bytes) (t : U16) (c : Bytes) (s s' : State), id.length = 20 → c.length ≤ 65504 →
    ∃ (out : Bytes) (f : Frame),
      exec (.build v id t (some c)) s = .next { s with returned := s.returned ++ [(s.conn, .bytes out)] } ∧
      exec (.parse out) s' = .next { s' with returned := s'.returned ++ [(s'.conn, .parse (.frame f))] } ∧
      f.version = v ∧ f.deviceIdRaw = id ∧ f.messageType = t ∧ f.content = c ∧ f.checksumValid = true ∧
      out.length = 31 + c.length ∧ out.take 2 = [0x40, 0x40] ∧ out.drop (29 + c.length) = [0x0D, 0x0A]

/-! ## DISPATCH -/

/-- DISPATCH of a Frame record (its id of 20 bytes) gives one answer, whatever state the front end is in: no memory of
earlier messages; and it is a reply exactly for the answered types (R187; 95_test_vectors.md section 4, Q10). -/
def Obligations.DispatchAnswersWithoutMemory : Prop :=
  ∀ (f : Frame) (now : U32), f.deviceIdRaw.length = 20 →
    ∃ r : Option Bytes,
      (∀ s : State, exec (.dispatch (.frame f) now) s =
        .next { s with returned := s.returned ++ [(s.conn, .reply r)] }) ∧
      (r.isSome = true ↔ f.messageType = 0x1001 ∨ f.messageType = 0x1003 ∨ f.messageType = 0x6001 ∨
        (f.messageType = 0x4007 ∧ 4 ≤ f.content.length))

/-- LOGIN: the 41-byte reply with the accepted marker, the zero field, and the device's clock or, for a content shorter
than 8 bytes, NOW (44_dispatcher.md section 2). That the reply carries the request's version is the spec's decision D11
(log 17). -/
def Obligations.DispatchAnswersLogin : Prop :=
  ∀ (f : Frame) (now : U32) (s : State), f.deviceIdRaw.length = 20 → f.messageType = 0x1001 →
    ∃ out, exec (.dispatch (.frame f) now) s =
        .next { s with returned := s.returned ++ [(s.conn, .reply (some out))] } ∧
      out.length = 41 ∧
      IsReply f 0x9001
        ([0xFF, 0xFF, 0xFF, 0xFF, 0x00, 0x00] ++
          if 8 ≤ f.content.length then (f.content.drop 4).take 4 else le32 now) out

/-- A LOGIN with at least 8 content bytes is answered with the device's clock, for every NOW (R190). -/
def Obligations.DispatchEchoesLoginClock : Prop :=
  ∀ (f : Frame) (s : State), f.deviceIdRaw.length = 20 → f.messageType = 0x1001 → 8 ≤ f.content.length →
    ∃ (out : Bytes) (g : Frame), parse out = .frame g ∧ readLE32 g.content 6 = readLE32 f.content 4 ∧
      ∀ now : U32, exec (.dispatch (.frame f) now) s =
        .next { s with returned := s.returned ++ [(s.conn, .reply (some out))] }

/-- HEARTBEAT and the legacy heartbeat get the same 31-byte reply of type 0x9003 with empty content, whatever their
content (44_dispatcher.md section 2). That the reply carries the request's version is the spec's decision D11 (log 17). -/
def Obligations.DispatchAnswersHeartbeats : Prop :=
  ∀ (f : Frame) (now : U32) (s : State), f.deviceIdRaw.length = 20 →
    f.messageType = 0x1003 ∨ f.messageType = 0x6001 →
    ∃ out, exec (.dispatch (.frame f) now) s =
        .next { s with returned := s.returned ++ [(s.conn, .reply (some out))] } ∧
      out.length = 31 ∧ IsReply f 0x9003 [] out ∧
      ∀ g : Frame, g.version = f.version → g.deviceIdRaw = f.deviceIdRaw →
        g.messageType = 0x1003 ∨ g.messageType = 0x6001 →
        exec (.dispatch (.frame g) now) s =
          .next { s with returned := s.returned ++ [(s.conn, .reply (some out))] }

/-- ALARM: the first four content bytes echoed in a 35-byte reply of type 0xC007, or no reply for fewer than four
(44_dispatcher.md section 2). That the reply carries the request's version is the spec's decision D11 (log 17). -/
def Obligations.DispatchAnswersAlarm : Prop :=
  ∀ (f : Frame) (now : U32) (s : State), f.messageType = 0x4007 →
    (4 ≤ f.content.length → f.deviceIdRaw.length = 20 →
      ∃ out, exec (.dispatch (.frame f) now) s =
          .next { s with returned := s.returned ++ [(s.conn, .reply (some out))] } ∧
        out.length = 35 ∧ IsReply f 0xC007 (f.content.take 4) out) ∧
    (f.content.length < 4 →
      exec (.dispatch (.frame f) now) s = .next { s with returned := s.returned ++ [(s.conn, .reply none)] })

/-- LOGOUT, GPS, PID data and every other type but the four answered ones: no reply, for every content (R183, R184, R185,
R186). -/
def Obligations.DispatchNoReplyTypes : Prop :=
  ∀ (f : Frame) (now : U32) (s : State), f.messageType ≠ 0x1001 → f.messageType ≠ 0x1003 →
    f.messageType ≠ 0x6001 → f.messageType ≠ 0x4007 →
    exec (.dispatch (.frame f) now) s = .next { s with returned := s.returned ++ [(s.conn, .reply none)] }

/-- DISPATCH does not read the checksum flag, the decoded id or the raw bytes (44_dispatcher.md section 1); and `invalid` is
no operand of it (93_implementation_defined.md, I10). -/
def Obligations.DispatchIgnoresChecksumFlag : Prop :=
  (∀ (f g : Frame) (now : U32) (s : State), f.version = g.version → f.deviceIdRaw = g.deviceIdRaw →
    f.messageType = g.messageType → f.content = g.content →
    exec (.dispatch (.frame f) now) s = exec (.dispatch (.frame g) now) s) ∧
  ∀ (now : U32) (s : State), exec (.dispatch .invalid now) s = .refused .dispatchInvalid

/-! ## RX -/

/-- RX is FEED followed by PARSE and DISPATCH of each FRAME item, one result an item, in order, each dispatched frame with
the next NOW (44_dispatcher.md section 4, decision D20; a supply that runs out goes on with the wall clock, log 10). -/
def Obligations.RxIsFeedThenParseThenDispatch : Prop :=
  ∀ (chunk : Bytes) (nows : List U32) (s : State), s.mem.wf →
    ∃ (items : List Item) (residue : Bytes) (rs : List RxResult) (t : State),
      exec (.rx chunk nows) s = .next t ∧ feed frontEndBounds s.buf chunk = (items, residue) ∧
      OnlyBufBecomes s t residue ∧ t.returned = s.returned ++ [(s.conn, .rx rs)] ∧
      t.draws = s.draws + (dispatchedBefore items items.length - nows.length) ∧
      rs.length = items.length ∧
      ∀ k : Nat,
        (∀ kind g, items[k]? = some (.discard kind g) → rs[k]? = some (.discarded kind g)) ∧
        (∀ F, items[k]? = some (.frame F) → parse F = .invalid → rs[k]? = some (.invalid F)) ∧
        (∀ F p, items[k]? = some (.frame F) → parse F = .frame p →
          ∃ r, dispatch p (nowAt nows s.draws (dispatchedBefore items k)) = .ok r ∧
            rs[k]? = some (.parsed p r))

/-- The end-to-end scenario for every LOGIN frame of up to 2048 bytes with a device clock: from an empty BUF, one result, one
reply of type 0x9001 with the request's id and clock, and BUF empty again (44_dispatcher.md section 4). The limit is the
spec's decision D1 (log 6), the version of the reply its decision D11 (log 17). -/
def Obligations.RxAnswersLoginEndToEnd : Prop :=
  ∀ (v : Byte) (id c F : Bytes) (nows : List U32) (s : State), s.mem.wf → s.buf = [] →
    8 ≤ c.length → c.length ≤ 2017 → build v id 0x1001 c = .ok F →
    ∃ (p g : Frame) (out : Bytes) (t : State), exec (.rx F nows) s = .next t ∧ OnlyBufBecomes s t [] ∧
      t.returned = s.returned ++ [(s.conn, .rx [.parsed p (some out)])] ∧
      p.messageType = 0x1001 ∧ p.checksumValid = true ∧ p.deviceIdRaw = id ∧ p.content = c ∧
      parse out = .frame g ∧ g.messageType = 0x9001 ∧ g.deviceIdRaw = id ∧ g.version = v ∧
      readLE32 g.content 6 = readLE32 c 4

/-- A frame row as an instruction is what RX does with that frame's bytes on an empty BUF, wall clock and all: the model's
reading of a frame row (log 4) agrees with the receive pipeline (44_dispatcher.md section 4). For frames of up to 2048
bytes, the most FEED cuts: the spec's decision D1 (log 6). The wall clock's draws are the model's (log 10). -/
def Obligations.FrameRowIsRxOfItsBytes : Prop :=
  ∀ (i : Instr) (s : State), i.isFrameRow = true → i.wellFormed = true → (encode i).length ≤ 2048 →
    s.mem.wf → s.buf = [] → exec (.rx (encode i) []) s = exec i s

/-! ## The frame rows -/

/-- A received LOGIN frame is parsed to its fields and answered; a content shorter than 8 bytes draws the wall clock
(44_dispatcher.md section 2; the row as an instruction is the model's reading, log 4, the clock's value is free and its draw
the model's, log 10; that the reply carries the request's version is the spec's decision D11, log 17). -/
def Obligations.LoginFrameIsAnswered : Prop :=
  ∀ (w : WireFrame) (s : State), w.wellFormed = true →
    ∃ (p : Frame) (out : Bytes),
      exec (.login w) s = .next
        { s with draws := s.draws + 1, returned := s.returned ++ [(s.conn, .rx [.parsed p (some out)])] } ∧
      p.raw = encode (.login w) ∧ p.messageType = 0x1001 ∧ p.version = w.version ∧
      p.deviceIdRaw = w.deviceIdRaw ∧ p.content = w.content ∧
      IsReply p 0x9001
        ([0xFF, 0xFF, 0xFF, 0xFF, 0x00, 0x00] ++
          if 8 ≤ w.content.length then (w.content.drop 4).take 4 else le32 (Config.wallClock s.draws)) out

/-- A received heartbeat frame, primary or legacy, is parsed to its fields and answered with type 0x9003 and empty content
(44_dispatcher.md section 2; the row as an instruction is the model's reading, log 4, the draw is the model's, log 10; that
the reply carries the request's version is the spec's decision D11, log 17). -/
def Obligations.HeartbeatFramesAreAnswered : Prop :=
  ∀ (w : WireFrame) (s : State) (i : Instr), w.wellFormed = true → i = .heartbeat w ∨ i = .heartbeatLegacy w →
    ∃ (p : Frame) (out : Bytes),
      exec i s = .next
        { s with draws := s.draws + 1, returned := s.returned ++ [(s.conn, .rx [.parsed p (some out)])] } ∧
      p.raw = encode i ∧ p.version = w.version ∧ p.deviceIdRaw = w.deviceIdRaw ∧ p.content = w.content ∧
      IsReply p 0x9003 [] out

/-- A received ALARM frame is parsed to its fields and answered with its index, or not at all when it carries fewer than
four content bytes (44_dispatcher.md section 2; the row as an instruction is the model's reading, log 4, the draw is the
model's, log 10; that the reply carries the request's version is the spec's decision D11, log 17). -/
def Obligations.AlarmFrameIsAnswered : Prop :=
  ∀ (w : WireFrame) (s : State), w.wellFormed = true →
    ∃ (p : Frame) (r : Option Bytes),
      exec (.alarm w) s = .next
        { s with draws := s.draws + 1, returned := s.returned ++ [(s.conn, .rx [.parsed p r])] } ∧
      p.raw = encode (.alarm w) ∧ p.messageType = 0x4007 ∧ p.version = w.version ∧
      p.deviceIdRaw = w.deviceIdRaw ∧ p.content = w.content ∧
      (w.content.length < 4 → r = none) ∧
      (4 ≤ w.content.length → ∃ out, r = some out ∧ IsReply p 0xC007 (w.content.take 4) out)

/-- A received frame of any other row is parsed to its fields and gets no reply: LOGOUT, GPS, PID, the three reply types sent
by a peer, and every type without a row of its own (44_dispatcher.md section 2; log 4, log 5; the draw is the model's,
log 10). -/
def Obligations.OtherFramesGetNoReply : Prop :=
  ∀ (w : WireFrame) (t : U16) (s : State) (i : Instr), w.wellFormed = true →
    i = .logout w ∨ i = .gps w ∨ i = .pid w ∨ i = .loginReply w ∨ i = .heartbeatReply w ∨ i = .alarmReply w ∨
      i = .other t w →
    ∃ p : Frame,
      exec i s = .next
        { s with draws := s.draws + 1, returned := s.returned ++ [(s.conn, .rx [.parsed p none])] } ∧
      p.raw = encode i ∧ p.version = w.version ∧ p.deviceIdRaw = w.deviceIdRaw ∧ p.content = w.content

/-- A wrong checksum is flagged, and neither it nor the footer changes a reply: each answered row replies to a frame as to
the same frame with any other checksum and footer, and its flag says whether the checksum is right (42_parser.md section 3,
44_dispatcher.md section 1). That the footer is not examined is the spec's decision D7 (log 15); the row's reading is the
model's choice (log 4), and so is the draw (log 10). -/
def Obligations.ChecksumDoesNotChangeTheReply : Prop :=
  ∀ (w w' : WireFrame) (s : State) (row : WireFrame → Instr), w.wellFormed = true →
    w'.version = w.version → w'.deviceIdRaw = w.deviceIdRaw → w'.content = w.content →
    row = Instr.login ∨ row = Instr.heartbeat ∨ row = Instr.heartbeatLegacy ∨ row = Instr.alarm →
    ∃ (p p' : Frame) (r : Option Bytes),
      exec (row w) s = .next
        { s with draws := s.draws + 1, returned := s.returned ++ [(s.conn, .rx [.parsed p r])] } ∧
      exec (row w') s = .next
        { s with draws := s.draws + 1, returned := s.returned ++ [(s.conn, .rx [.parsed p' r])] } ∧
      (p.checksumValid = true ↔
        crc16 (encode (row w)) 0 ((encode (row w)).length - 4) = some w.checksum)

/-! ## The whole machine -/

/-- Only FEED and RX write a buffer, and only the acting connection's; no instruction touches the connection, the host's
events or another instance (10_state.md sections 1 and 3, 20_memory.md section 3). -/
def Obligations.OnlyFeedAndRxWriteBuffers : Prop :=
  ∀ (i : Instr) (s t : State), exec i s = .next t →
    t.conn = s.conn ∧ t.pending = s.pending ∧
    (∀ c, c ≠ s.conn → Memory.read c t.mem = Memory.read c s.mem) ∧
    ((∀ chunk, i ≠ .feed chunk) → (∀ chunk nows, i ≠ .rx chunk nows) → t.mem = s.mem)

/-- Every completed instruction returns exactly one result, to the connection it acts for, behind all earlier ones
(20_memory.md sections 3 and 5), and the count of wall clock draws never falls. The log of returned results and that count
are the model's choice (log 12, log 10). -/
def Obligations.EachInstructionReturnsOneResult : Prop :=
  ∀ (i : Instr) (s t : State), exec i s = .next t →
    s.draws ≤ t.draws ∧ ∃ r : Result, t.returned = s.returned ++ [(s.conn, r)]

/-- The complete list of refusals: CRC16 out of range, BUILD with a bad id or an over-long content, DISPATCH given
`invalid` or a record whose id is not of 20 bytes when a reply is due. Nothing else refuses (60_exceptions.md sections 1
and 2; D9, D10, I10, log 16, log 22). -/
def Obligations.RefusalsAreExactlyTheSpecs : Prop :=
  ∀ (i : Instr) (s : State) (r : Refusal), exec i s = .refused r ↔
    (∃ S o l, i = .crc16 S o l ∧ S.length < o + l ∧ r = .crcRange o l S.length) ∨
    (∃ v id t c, i = .build v id t c ∧ id.length ≠ 20 ∧ r = .buildId id.length) ∨
    (∃ v id t c, i = .build v id t (some c) ∧ id.length = 20 ∧ 65504 < c.length ∧ r = .buildContent c.length) ∨
    (∃ now, i = .dispatch .invalid now ∧ r = .dispatchInvalid) ∨
    (∃ f now, i = .dispatch (.frame f) now ∧ f.deviceIdRaw.length ≠ 20 ∧
      (f.messageType = 0x1001 ∨ f.messageType = 0x1003 ∨ f.messageType = 0x6001 ∨
        (f.messageType = 0x4007 ∧ 4 ≤ f.content.length)) ∧
      r = .buildId f.deviceIdRaw.length)

/-- Every step keeps the invariant: the buffers in canonical form, each in a residue shape (10_state.md section 3, the
spec's own inference; bounds of D1, log 6). -/
def Obligations.StepKeepsResidueShapes : Prop :=
  ∀ s t : State, s.Inv → step s = .next t → t.Inv

/-- Under the invariant no buffer holds more than 2047 bytes, and it holds after reset (10_state.md sections 3 and 8). -/
def Obligations.ResetMeetsResidueShapes : Prop :=
  State.reset.Inv ∧ ∀ (s : State) (c : Nat), s.Inv → (Memory.read c s.mem).length ≤ 2047

/-- Every operation, with operands of any length and size, is run by the step that reads its command: no operand is shut out
by how it crosses the boundary (30_encoding.md section 6; the bytes of a command are the model's choice, log 3). -/
def Obligations.StepRunsEveryOperation : Prop :=
  ∀ (s : State) (c : Nat) (i : Instr) (rest : List HostEvent), i.isFrameRow = false →
    s.pending = .invoke c (encode i) :: rest → step s = exec i { s with conn := c, pending := rest }
end

