-- ==== Sys2Proof/Laws/Bytes.lean ====
section
/-! SUPPORT. The laws of slices, of the field assembly primitives (00_scope.md R10) and of the frame layout. -/

namespace Sys2Proof.Machine

@[simp] theorem length_le16 (v : U16) : (le16 v).length = 2 := rfl
@[simp] theorem length_be16 (v : U16) : (be16 v).length = 2 := rfl
@[simp] theorem length_le32 (v : U32) : (le32 v).length = 4 := rfl

@[simp] theorem length_slice (S : Bytes) (a b : Nat) : (slice S a b).length = min (b - a) (S.length - a) := by
  simp [slice]

@[simp] theorem slice_zero (S : Bytes) (b : Nat) : slice S 0 b = S.take b := by simp [slice]

theorem slice_append_drop (S : Bytes) (k : Nat) : slice S 0 k ++ S.drop k = S := by simp

/-- A slice that lies behind a known front part. -/
theorem slice_append (A B : Bytes) (a b : Nat) :
    slice (A ++ B) (A.length + a) (A.length + b) = slice B a b := by
  simp only [slice, Nat.add_sub_add_left, List.drop_append, Nat.add_sub_cancel_left]
  rw [List.drop_eq_nil_of_le (by omega), List.nil_append]

/-- The slice that is exactly the middle part. -/
theorem slice_middle (A M B : Bytes) : slice (A ++ M ++ B) A.length (A.length + M.length) = M := by
  simp [slice]

theorem byteAt_append_left {A B : Bytes} {i : Nat} (h : i < A.length) : byteAt (A ++ B) i = byteAt A i := by
  simp [byteAt, List.getD, List.getElem?_append_left h]

theorem byteAt_append_right (A B : Bytes) (i : Nat) : byteAt (A ++ B) (A.length + i) = byteAt B i := by
  simp [byteAt, List.getD, List.getElem?_append_right]

theorem byteAt_of_getElem? {S : Bytes} {i : Nat} {b : Byte} (h : S[i]? = some b) : byteAt S i = b := by
  simp [byteAt, List.getD, h]

theorem getElem?_of_lt {S : Bytes} {i : Nat} (h : i < S.length) : S[i]? = some (byteAt S i) := by
  simp [byteAt, List.getD, h]

/-- A reading of an in-range index is unchanged by what is put behind. -/
theorem readLE16_append_left {A B : Bytes} {i : Nat} (h : i + 1 < A.length) :
    readLE16 (A ++ B) i = readLE16 A i := by
  simp [readLE16, byteAt_append_left (show i < A.length by omega), byteAt_append_left h]

theorem readLE16_append_right (A B : Bytes) (i : Nat) : readLE16 (A ++ B) (A.length + i) = readLE16 B i := by
  simp only [readLE16, Nat.add_assoc, byteAt_append_right]

theorem readBE16_append_left {A B : Bytes} {i : Nat} (h : i + 1 < A.length) :
    readBE16 (A ++ B) i = readBE16 A i := by
  simp [readBE16, byteAt_append_left (show i < A.length by omega), byteAt_append_left h]

theorem readBE16_append_right (A B : Bytes) (i : Nat) : readBE16 (A ++ B) (A.length + i) = readBE16 B i := by
  simp only [readBE16, Nat.add_assoc, byteAt_append_right]

/-- `LE16(le16(v), 0) = v` (R10). -/
@[simp] theorem readLE16_le16 (v : U16) (r : Bytes) : readLE16 (le16 v ++ r) 0 = v := by
  simp only [readLE16, le16, byteAt, List.cons_append, List.nil_append, List.getD_cons_succ, List.getD_cons_zero]
  exact BitVec.eq_of_getLsbD_eq fun i hi => by
    simp only [BitVec.getLsbD_append, BitVec.getLsbD_extractLsb']
    by_cases h : i < 8
    · simp [h]
    · simp [h, show i - 8 < 8 by omega, show 8 + (i - 8) = i by omega]

/-- `BE16(be16(v), 0) = v` (R10). -/
@[simp] theorem readBE16_be16 (v : U16) (r : Bytes) : readBE16 (be16 v ++ r) 0 = v := by
  simp only [readBE16, be16, byteAt, List.cons_append, List.nil_append, List.getD_cons_succ, List.getD_cons_zero]
  exact BitVec.eq_of_getLsbD_eq fun i hi => by
    simp only [BitVec.getLsbD_append, BitVec.getLsbD_extractLsb']
    by_cases h : i < 8
    · simp [h]
    · simp [h, show i - 8 < 8 by omega, show 8 + (i - 8) = i by omega]

/-- `LE32(le32(v), 0) = v` (R10). -/
@[simp] theorem readLE32_le32 (v : U32) (r : Bytes) : readLE32 (le32 v ++ r) 0 = v := by
  simp only [readLE32, le32, byteAt, List.cons_append, List.nil_append, List.getD_cons_succ, List.getD_cons_zero]
  exact BitVec.eq_of_getLsbD_eq fun i hi => by
    simp only [BitVec.getLsbD_append, BitVec.getLsbD_extractLsb']
    by_cases h1 : i < 8
    · simp [h1]
    · by_cases h2 : i - 8 < 8
      · simp [h1, h2, show 8 + (i - 8) = i by omega]
      · by_cases h3 : i - 8 - 8 < 8
        · simp [h1, h2, h3, show 16 + (i - 8 - 8) = i by omega]
        · simp [h1, h2, h3, show i - 8 - 8 - 8 < 8 by omega, show 24 + (i - 8 - 8 - 8) = i by omega]

/-- The low byte of an appended pair. -/
theorem extract_append_low {n : Nat} (x : BitVec n) (y : Byte) : (x ++ y).extractLsb' 0 8 = y :=
  BitVec.eq_of_getLsbD_eq fun i hi => by
    simp [BitVec.getLsbD_append, BitVec.getLsbD_extractLsb', hi, -BitVec.getLsbD_eq_getElem]

/-- A byte above the low one of an appended pair. -/
theorem extract_append_high {n : Nat} (x : BitVec n) (y : Byte) (k : Nat) :
    (x ++ y).extractLsb' (8 + k) 8 = x.extractLsb' k 8 :=
  BitVec.eq_of_getLsbD_eq fun i hi => by
    simp [BitVec.getLsbD_append, BitVec.getLsbD_extractLsb', hi, -BitVec.getLsbD_eq_getElem,
      show ¬ 8 + k + i < 8 by omega, show 8 + k + i - 8 = k + i by omega]

theorem extract_byte (x : Byte) : x.extractLsb' 0 8 = x :=
  BitVec.eq_of_getLsbD_eq fun i hi => by
    simp [-BitVec.getLsbD_eq_getElem]

/-- The four bytes of a u32 are the ones it was read from. -/
theorem le32_readLE32 (a b c d : Byte) (r : Bytes) :
    le32 (readLE32 (a :: b :: c :: d :: r) 0) = [a, b, c, d] := by
  simp only [readLE32, le32, byteAt, List.getD_cons_succ, List.getD_cons_zero, List.cons.injEq, and_true]
  exact ⟨extract_append_low _ _,
    (extract_append_high _ a 0).trans (extract_append_low _ _),
    (extract_append_high _ a 8).trans ((extract_append_high _ b 0).trans (extract_append_low _ _)),
    (extract_append_high _ a 16).trans ((extract_append_high _ b 8).trans
      ((extract_append_high _ c 0).trans (extract_byte d)))⟩

/-- The two bytes of a u16 are the ones it was read from, low byte first. -/
theorem le16_readLE16 (a b : Byte) (r : Bytes) : le16 (readLE16 (a :: b :: r) 0) = [a, b] := by
  simp only [readLE16, le16, byteAt, List.getD_cons_succ, List.getD_cons_zero, List.cons.injEq, and_true]
  exact ⟨extract_append_low _ _, (extract_append_high _ a 0).trans (extract_byte b)⟩

/-- The two bytes of a u16 are the ones it was read from, high byte first. -/
theorem be16_readBE16 (a b : Byte) (r : Bytes) : be16 (readBE16 (a :: b :: r) 0) = [a, b] := by
  simp only [readBE16, be16, byteAt, List.getD_cons_succ, List.getD_cons_zero, List.cons.injEq, and_true]
  exact ⟨(extract_append_high _ b 0).trans (extract_byte a), extract_append_low _ _⟩

/-- The value of a little-endian u16 in its bytes' values. -/
theorem readLE16_toNat (S : Bytes) (i : Nat) :
    (readLE16 S i).toNat = (byteAt S i).toNat + 256 * (byteAt S (i + 1)).toNat := by
  have h := (byteAt S i).isLt
  simp only [readLE16, BitVec.toNat_append, Nat.shiftLeft_eq]
  rw [← Nat.shiftLeft_eq, ← Nat.shiftLeft_add_eq_or_of_lt h, Nat.shiftLeft_eq]
  omega

/-- The value of a big-endian u16 in its bytes' values. -/
theorem readBE16_toNat (S : Bytes) (i : Nat) :
    (readBE16 S i).toNat = 256 * (byteAt S i).toNat + (byteAt S (i + 1)).toNat := by
  have h := (byteAt S (i + 1)).isLt
  simp only [readBE16, BitVec.toNat_append]
  rw [← Nat.shiftLeft_add_eq_or_of_lt h, Nat.shiftLeft_eq]
  omega

@[simp] theorem length_frameBody (v : Byte) (id : Bytes) (t : U16) (c : Bytes) :
    (frameBody v id t c).length = 7 + id.length + c.length := by
  simp [frameBody]; omega

@[simp] theorem length_frameBytes (t : U16) (w : WireFrame) :
    (frameBytes t w).length = 11 + w.deviceIdRaw.length + w.content.length := by
  simp [frameBytes]; omega

/-- The first four bytes of a frame: the marker and the length (R60). -/
theorem frameBody_eq (v : Byte) (id : Bytes) (t : U16) (c : Bytes) :
    frameBody v id t c =
      [0x40, 0x40, (BitVec.ofNat 16 (31 + c.length)).extractLsb' 0 8,
        (BitVec.ofNat 16 (31 + c.length)).extractLsb' 8 8, v] ++ id ++
        [t.extractLsb' 8 8, t.extractLsb' 0 8] ++ c := by
  simp [frameBody, le16, be16, markByte, overhead]

section fields
variable {v : Byte} {id : Bytes} {t : U16} {c : Bytes} {r : Bytes}

theorem byteAt_frameBody_zero : byteAt (frameBody v id t c ++ r) 0 = markByte := rfl
theorem byteAt_frameBody_one : byteAt (frameBody v id t c ++ r) 1 = markByte := rfl
theorem byteAt_frameBody_version : byteAt (frameBody v id t c ++ r) 4 = v := rfl

/-- The declared length of a frame (R60). -/
theorem readLE16_frameBody : readLE16 (frameBody v id t c ++ r) 2 = BitVec.ofNat 16 (31 + c.length) := by
  simpa [frameBody, overhead, List.append_assoc] using
    readLE16_append_right [markByte, markByte]
      (le16 (BitVec.ofNat 16 (31 + c.length)) ++ ([v] ++ (id ++ (be16 t ++ (c ++ r))))) 0

/-- The device id of a frame (R61). -/
theorem slice_frameBody_id (h : id.length = 20) : slice (frameBody v id t c ++ r) 5 25 = id := by
  have := slice_middle ([markByte, markByte] ++ le16 (BitVec.ofNat 16 (overhead + c.length)) ++ [v]) id
    (be16 t ++ (c ++ r))
  simpa [frameBody, h, List.append_assoc] using this

/-- The message type of a frame (R61). -/
theorem readBE16_frameBody (h : id.length = 20) : readBE16 (frameBody v id t c ++ r) 25 = t := by
  have := readBE16_append_right
    ([markByte, markByte] ++ le16 (BitVec.ofNat 16 (overhead + c.length)) ++ [v] ++ id) (be16 t ++ (c ++ r)) 0
  simpa [frameBody, h, List.append_assoc] using this

/-- The content of a frame (R61). -/
theorem slice_frameBody_content (h : id.length = 20) :
    slice (frameBody v id t c ++ r) 27 (27 + c.length) = c := by
  have := slice_middle
    ([markByte, markByte] ++ le16 (BitVec.ofNat 16 (overhead + c.length)) ++ [v] ++ id ++ be16 t) c r
  simpa [frameBody, h, List.append_assoc] using this

end fields

end Sys2Proof.Machine
end

