-- ==== Sys2Proof/Laws/Codec.lean ====
section
/-! SUPPORT. One law per reader of an operand: it reads back what its writer wrote, and leaves the rest. -/

namespace Sys2Proof

open Sys2Proof.Machine

@[simp] theorem andThen_ok {α β : Type} (v : α) (r : Bytes) (f : α → Bytes → Reading β) :
    andThen (.ok (v, r)) f = f v r := rfl

@[simp] theorem andThen_error {α β : Type} (e : DecodeError) (f : α → Bytes → Reading β) :
    andThen (.error e) f = .error e := rfl

/-- What a sequence of two readings can answer. -/
theorem andThen_eq_ok {α β : Type} {x : Reading α} {f : α → Bytes → Reading β} {y : β × Bytes}
    (h : andThen x f = .ok y) : ∃ v r, x = .ok (v, r) ∧ f v r = .ok y := by
  cases x with
  | error e => cases h
  | ok p => exact ⟨p.1, p.2, rfl, h⟩

@[simp] theorem takeByte_cons (b : Byte) (r : Bytes) : takeByte (b :: r) = .ok (b, r) := rfl

theorem takeBytes_append (S r : Bytes) : takeBytes S.length (S ++ r) = .ok (S, r) := by
  simp [takeBytes]

@[simp] theorem takeBE16_be16 (v : U16) (r : Bytes) : takeBE16 (be16 v ++ r) = .ok (v, r) := by
  have h := takeBytes_append (be16 v) r
  rw [length_be16] at h
  simpa [takeBE16, h] using readBE16_be16 v []

@[simp] theorem takeLE32_le32 (v : U32) (r : Bytes) : takeLE32 (le32 v ++ r) = .ok (v, r) := by
  have h := takeBytes_append (le32 v) r
  rw [length_le32] at h
  simpa [takeLE32, h] using readLE32_le32 v []

/-- A run of `k` bytes `FF` and a last byte that is none. -/
theorem takeCount_run (k : Nat) {b : Byte} (hb : b ≠ 0xFF) (r : Bytes) :
    takeCount (List.replicate k 0xFF ++ b :: r) = .ok (255 * k + b.toNat, r) := by
  induction k with
  | zero => rw [List.replicate_zero, List.nil_append, takeCount, if_neg hb, Nat.mul_zero, Nat.zero_add]
  | succ k ih =>
    rw [List.replicate_succ, List.cons_append, takeCount, if_pos rfl, ih, andThen_ok]
    congr 2; omega

/-- Every natural is read back, however large (R68). -/
@[simp] theorem takeCount_putCount (n : Nat) (r : Bytes) : takeCount (putCount n ++ r) = .ok (n, r) := by
  have hm : n % 255 < 255 := Nat.mod_lt _ (by decide)
  have hv : (BitVec.ofNat 8 (n % 255)).toNat = n % 255 := by
    rw [BitVec.toNat_ofNat]; exact Nat.mod_eq_of_lt (by omega)
  have hb : BitVec.ofNat 8 (n % 255) ≠ 0xFF := fun h => by
    have := congrArg BitVec.toNat h
    rw [hv] at this
    exact absurd this (by simp; omega)
  rw [putCount, List.append_assoc, List.singleton_append, takeCount_run _ hb, hv, Nat.div_add_mod]

/-- What a count can be: it is read exactly where it was written. -/
theorem takeCount_eq_ok_iff {S r : Bytes} {n : Nat} : takeCount S = .ok (n, r) ↔ S = putCount n ++ r := by
  refine ⟨fun h => ?_, fun h => h ▸ takeCount_putCount n r⟩
  induction S generalizing n with
  | nil => cases h
  | cons b S ih =>
    rw [takeCount] at h
    split at h
    · next hb =>
      obtain ⟨m, r', hm, he⟩ := andThen_eq_ok h
      cases he
      rw [ih hm, hb, putCount, putCount, Nat.add_div_right _ (by decide), Nat.add_mod_right,
        List.replicate_succ]
      rfl
    · next hb =>
      cases h
      have hlt : b.toNat < 255 := by
        have h1 := b.isLt
        have h2 : b.toNat ≠ 255 := fun h => hb (BitVec.eq_of_toNat_eq h)
        omega
      rw [putCount, Nat.div_eq_of_lt hlt, Nat.mod_eq_of_lt hlt, BitVec.ofNat_toNat, BitVec.setWidth_eq]
      rfl

@[simp] theorem idCount_idCount (n : Nat) : idCount (idCount n) = n := by
  unfold idCount idLen
  split <;> split <;> simp_all

@[simp] theorem takeSeq_putSeq (S r : Bytes) : takeSeq (putSeq S ++ r) = .ok (S, r) := by
  simp [takeSeq, putSeq, takeBytes_append]

@[simp] theorem takeId_putId (S r : Bytes) : takeId (putId S ++ r) = .ok (S, r) := by
  simp [takeId, putId, takeBytes_append]

@[simp] theorem takeForm_putForm (x : Bool) (r : Bytes) : takeForm (putForm x ++ r) = .ok (x, r) := by
  cases x <;> simp [takeForm, putForm]

theorem takeWords_putWords (vs : List U32) (r : Bytes) :
    takeWords vs.length (putWords vs ++ r) = .ok (vs, r) := by
  induction vs with
  | nil => rfl
  | cons v vs ih => simp [takeWords, putWords, List.append_assoc, ih]

@[simp] theorem takeFrame_putFrame (f : Frame) (r : Bytes) : takeFrame (putFrame f ++ r) = .ok (f, r) := by
  simp [takeFrame, putFrame, List.append_assoc]

/-- `whole` answers exactly where nothing is left. -/
theorem whole_eq_ok_iff {x : Reading Instr} {i : Instr} : whole x = .ok i ↔ x = .ok (i, []) := by
  unfold whole
  split <;> simp_all

/-- A message type selects its own row (R63). -/
theorem rowOfType_other {t : U16} {w : WireFrame} (h : namedTypes.contains t = false) :
    rowOfType t w = .other t w := by
  simp only [namedTypes, List.contains_eq_mem, List.mem_cons, List.not_mem_nil, or_false, not_or,
    decide_eq_false_iff_not] at h
  obtain ⟨h1, h2, h3, h4, h5, h6, h7, h8, h9, h10⟩ := h
  simp [rowOfType, h1, h2, h3, h4, h5, h6, h7, h8, h9, h10]

end Sys2Proof
end

