-- ==== Sys2Proof/Laws/Crc.lean ====
section
/-! SUPPORT. The laws of the Checksum Engine: the bits of a reflection, and CRC16 on the ranges its callers use. -/

namespace Sys2Proof.Machine

/-- REFLECT8 on its bits (R90). -/
theorem reflect8_getLsbD (b : Byte) (i : Fin 8) : (reflect8 b).getLsbD i = b.getLsbD (7 - i) := by
  revert b i; decide +kernel

/-- "It is its own inverse" (R90). -/
theorem reflect8_reflect8 (b : Byte) : reflect8 (reflect8 b) = b := by
  revert b; decide +kernel

/-- CRC16 answers exactly on the ranges inside its input (R95, R97(b)). -/
theorem crc16_eq_some_iff {S : Bytes} {o l : Nat} {v : U16} :
    crc16 S o l = some v ↔ o + l ≤ S.length ∧ v = crcRange S o l := by
  unfold crc16
  split <;> simp_all [eq_comm]

theorem crc16_eq_none_iff {S : Bytes} {o l : Nat} : crc16 S o l = none ↔ S.length < o + l := by
  unfold crc16
  split <;> simp_all

/-- The range from the front depends on that front only (R97). -/
theorem crcRange_append_left (A B : Bytes) : crcRange (A ++ B) 0 A.length = crcRange A 0 A.length := by
  simp [crcRange]

/-- A range from the front is the CRC of that front taken alone. -/
theorem crcRange_take {F : Bytes} {n : Nat} (h : n ≤ F.length) :
    crcRange F 0 n = crcRange (F.take n) 0 (F.take n).length := by
  simp [crcRange, List.take_take, h]

/-- What execCrc16 can answer. -/
theorem execCrc16_next {S : Bytes} {o l : Nat} {s t : State} (h : execCrc16 S o l s = .next t) :
    o + l ≤ S.length ∧ t = s.deliver (.crc (crcRange S o l)) := by
  unfold execCrc16 at h
  split at h
  · rename_i v hv
    obtain ⟨hle, rfl⟩ := crc16_eq_some_iff.mp hv
    exact ⟨hle, by simpa using h.symm⟩
  · cases h

end Sys2Proof.Machine
end

