-- ==== Sys2Proof/Laws/State.lean ====
section
/-! SUPPORT. One lemma per field per update of State (all by rfl), so that no proof unfolds a record update. -/

namespace Sys2Proof.Machine

@[simp] theorem State.deliver_mem (s : State) (r : Result) : (s.deliver r).mem = s.mem := rfl
@[simp] theorem State.deliver_conn (s : State) (r : Result) : (s.deliver r).conn = s.conn := rfl
@[simp] theorem State.deliver_pending (s : State) (r : Result) : (s.deliver r).pending = s.pending := rfl
@[simp] theorem State.deliver_draws (s : State) (r : Result) : (s.deliver r).draws = s.draws := rfl
@[simp] theorem State.deliver_returned (s : State) (r : Result) :
    (s.deliver r).returned = s.returned ++ [(s.conn, r)] := rfl
@[simp] theorem State.deliver_buf (s : State) (r : Result) : (s.deliver r).buf = s.buf := rfl

@[simp] theorem State.setBuf_mem (s : State) (v : Bytes) :
    (s.setBuf v).mem = Memory.write s.conn v s.mem := rfl
@[simp] theorem State.setBuf_conn (s : State) (v : Bytes) : (s.setBuf v).conn = s.conn := rfl
@[simp] theorem State.setBuf_pending (s : State) (v : Bytes) : (s.setBuf v).pending = s.pending := rfl
@[simp] theorem State.setBuf_draws (s : State) (v : Bytes) : (s.setBuf v).draws = s.draws := rfl
@[simp] theorem State.setBuf_returned (s : State) (v : Bytes) : (s.setBuf v).returned = s.returned := rfl

@[simp] theorem State.setDraws_mem (s : State) (n : Nat) : (s.setDraws n).mem = s.mem := rfl
@[simp] theorem State.setDraws_conn (s : State) (n : Nat) : (s.setDraws n).conn = s.conn := rfl
@[simp] theorem State.setDraws_pending (s : State) (n : Nat) : (s.setDraws n).pending = s.pending := rfl
@[simp] theorem State.setDraws_draws (s : State) (n : Nat) : (s.setDraws n).draws = n := rfl
@[simp] theorem State.setDraws_returned (s : State) (n : Nat) : (s.setDraws n).returned = s.returned := rfl
@[simp] theorem State.setDraws_buf (s : State) (n : Nat) : (s.setDraws n).buf = s.buf := rfl

@[simp] theorem State.begin_mem (s : State) (c : Nat) (rest : List HostEvent) : (s.begin c rest).mem = s.mem := rfl
@[simp] theorem State.begin_conn (s : State) (c : Nat) (rest : List HostEvent) : (s.begin c rest).conn = c := rfl
@[simp] theorem State.begin_pending (s : State) (c : Nat) (rest : List HostEvent) :
    (s.begin c rest).pending = rest := rfl
@[simp] theorem State.begin_draws (s : State) (c : Nat) (rest : List HostEvent) :
    (s.begin c rest).draws = s.draws := rfl
@[simp] theorem State.begin_returned (s : State) (c : Nat) (rest : List HostEvent) :
    (s.begin c rest).returned = s.returned := rfl
@[simp] theorem State.begin_buf (s : State) (c : Nat) (rest : List HostEvent) :
    (s.begin c rest).buf = Memory.read c s.mem := rfl

@[simp] theorem State.closeConn_mem (s : State) (c : Nat) (rest : List HostEvent) :
    (s.closeConn c rest).mem = Memory.write c [] s.mem := rfl
@[simp] theorem State.closeConn_conn (s : State) (c : Nat) (rest : List HostEvent) :
    (s.closeConn c rest).conn = s.conn := rfl
@[simp] theorem State.closeConn_pending (s : State) (c : Nat) (rest : List HostEvent) :
    (s.closeConn c rest).pending = rest := rfl
@[simp] theorem State.closeConn_draws (s : State) (c : Nat) (rest : List HostEvent) :
    (s.closeConn c rest).draws = s.draws := rfl
@[simp] theorem State.closeConn_returned (s : State) (c : Nat) (rest : List HostEvent) :
    (s.closeConn c rest).returned = s.returned := rfl

end Sys2Proof.Machine
end

