-- ==== Sys2Proof/Laws/Encoder.lean ====
section
/-! SUPPORT. The laws of BUILD: when it answers, and when it is refused. -/

namespace Sys2Proof.Machine

theorem build_eq_ok_iff {v : Byte} {id : Bytes} {t : U16} {c out : Bytes} :
    build v id t c = .ok out ↔ id.length = 20 ∧ c.length ≤ 65504 ∧ out = composed v id t c := by
  unfold build idLen contentMax
  split_ifs with h1 h2
  · simp [h1]
  · simp only [false_iff]; omega
  · simp only [Except.ok.injEq]
    exact ⟨fun h => ⟨not_not.mp h1, by omega, h.symm⟩, fun h => h.2.2.symm⟩

theorem build_eq_error_iff {v : Byte} {id : Bytes} {t : U16} {c : Bytes} {r : Refusal} :
    build v id t c = .error r ↔
      (id.length ≠ 20 ∧ r = .buildId id.length) ∨
        (id.length = 20 ∧ 65504 < c.length ∧ r = .buildContent c.length) := by
  unfold build idLen contentMax
  split_ifs with h1 h2
  · simp [h1, eq_comm]
  · simp [not_not.mp h1, h2, eq_comm]
  · simp [not_not.mp h1, h2]

theorem length_composed (v : Byte) (id : Bytes) (t : U16) (c : Bytes) :
    (composed v id t c).length = 11 + id.length + c.length := by
  simp [composed]; omega

end Sys2Proof.Machine
end

