-- ==== Sys2Proof/Laws/Parser.lean ====
section
/-! SUPPORT. The laws of PARSE: when it answers which, and what it reads from a frame laid out by R60. -/

namespace Sys2Proof.Machine

theorem parse_eq_frame_iff {F : Bytes} {f : Frame} :
    parse F = .frame f ↔ 31 ≤ F.length ∧ (readLE16 F 2).toNat = F.length ∧ f = frameOf F := by
  by_cases h1 : F.length < 31
  · have : parse F = .invalid := if_pos h1
    rw [this]; exact ⟨fun h => (by cases h), fun h => by omega⟩
  · by_cases h2 : (readLE16 F 2).toNat ≠ F.length
    · have : parse F = .invalid := (if_neg h1).trans (if_pos h2)
      rw [this]; exact ⟨fun h => (by cases h), fun h => absurd h.2.1 h2⟩
    · have : parse F = .frame (frameOf F) := (if_neg h1).trans (if_neg h2)
      rw [this]
      exact ⟨fun h => ⟨by omega, not_not.mp h2, (ParseResult.frame.inj h).symm⟩, fun h => by rw [h.2.2]⟩

theorem parse_eq_invalid_iff {F : Bytes} :
    parse F = .invalid ↔ F.length < 31 ∨ (readLE16 F 2).toNat ≠ F.length := by
  cases h : parse F with
  | invalid =>
    refine ⟨fun _ => ?_, fun _ => rfl⟩
    by_contra hc
    have := parse_eq_frame_iff.mpr ⟨by omega, not_not.mp fun h2 => hc (.inr h2), rfl⟩
    rw [h] at this; cases this
  | frame f =>
    obtain ⟨h1, h2, -⟩ := parse_eq_frame_iff.mp h
    exact ⟨fun h => (by cases h), fun h => by omega⟩

@[simp] theorem frameOf_version (F : Bytes) : (frameOf F).version = byteAt F 4 := rfl
@[simp] theorem frameOf_deviceIdRaw (F : Bytes) : (frameOf F).deviceIdRaw = slice F 5 25 := rfl
@[simp] theorem frameOf_deviceId (F : Bytes) : (frameOf F).deviceId = deviceIdOf (slice F 5 25) := rfl
@[simp] theorem frameOf_messageType (F : Bytes) : (frameOf F).messageType = readBE16 F 25 := rfl
@[simp] theorem frameOf_content (F : Bytes) : (frameOf F).content = slice F 27 (F.length - 4) := by
  simp only [frameOf, contentOff]
@[simp] theorem frameOf_raw (F : Bytes) : (frameOf F).raw = F := rfl
@[simp] theorem frameOf_checksumValid (F : Bytes) : (frameOf F).checksumValid = checksumFlag F := rfl

/-- The id of a Frame record has 20 bytes (R30, R144). -/
theorem length_deviceIdRaw_of_parse {F : Bytes} {f : Frame} (h : parse F = .frame f) :
    f.deviceIdRaw.length = 20 := by
  obtain ⟨h1, -, hf⟩ := parse_eq_frame_iff.mp h
  rw [hf, frameOf_deviceIdRaw, length_slice]
  omega

/-- PARSE of a frame laid out by R60, whatever its checksum and footer: the fields it was laid out with. -/
theorem parse_frameBody {v : Byte} {id : Bytes} {t : U16} {c : Bytes} {k : U16} {x y : Byte}
    (hid : id.length = 20) (hc : c.length ≤ 65504) :
    parse (frameBody v id t c ++ le16 k ++ [x, y]) =
      .frame
        { version := v
          deviceIdRaw := id
          deviceId := deviceIdOf id
          messageType := t
          content := c
          raw := frameBody v id t c ++ le16 k ++ [x, y]
          checksumValid := decide (k = crcRange (frameBody v id t c) 0 (27 + c.length)) } := by
  have hlen : (frameBody v id t c ++ le16 k ++ [x, y]).length = 31 + c.length := by simp [hid]; omega
  have hb : (frameBody v id t c).length = 27 + c.length := by simp [hid]
  refine parse_eq_frame_iff.mpr ⟨by omega, ?_, ?_⟩
  · rw [hlen, List.append_assoc, readLE16_frameBody, BitVec.toNat_ofNat, Nat.mod_eq_of_lt (by omega)]
  · unfold frameOf checksumFlag
    rw [hlen, show 31 + c.length - 4 = 27 + c.length by omega]
    have hk : readLE16 (frameBody v id t c ++ le16 k ++ [x, y]) (27 + c.length) = k := by
      have := readLE16_append_right (frameBody v id t c) (le16 k ++ [x, y]) 0
      rw [hb] at this
      simpa [List.append_assoc] using this
    have hcrc : crcRange (frameBody v id t c ++ le16 k ++ [x, y]) 0 (27 + c.length) =
        crcRange (frameBody v id t c) 0 (27 + c.length) := by
      simp [crcRange, List.append_assoc, List.take_append_of_le_length (le_of_eq hb.symm)]
    rw [hk, hcrc]
    simp only [List.append_assoc, contentOff]
    rw [byteAt_frameBody_version, slice_frameBody_id hid, readBE16_frameBody hid, slice_frameBody_content hid]

/-- A received frame row parses to its own fields (R61). -/
theorem parse_frameBytes {t : U16} {w : WireFrame} (h : w.deviceIdRaw.length = 20 ∧ w.content.length ≤ 65504) :
    parse (frameBytes t w) =
      .frame
        { version := w.version
          deviceIdRaw := w.deviceIdRaw
          deviceId := deviceIdOf w.deviceIdRaw
          messageType := t
          content := w.content
          raw := frameBytes t w
          checksumValid :=
            decide (w.checksum = crcRange (frameBody w.version w.deviceIdRaw t w.content) 0 (27 + w.content.length)) } :=
  parse_frameBody h.1 h.2

end Sys2Proof.Machine
end

