-- ==== Sys2Proof/Laws/Dispatcher.lean ====
section
/-! SUPPORT. The laws of the dispatcher and of the pipeline's shared operations: when a rule can be refused, what a received
frame can answer, and that RX's loop is never refused. -/

namespace Sys2Proof.Machine

theorem length_loginTimestamp (c : Bytes) (now : U32) : (loginTimestamp c now).length = 4 := by
  unfold loginTimestamp
  split_ifs with h
  · simp; omega
  · rfl

/-- A reply is refused only for an id that is not of 20 bytes or a content that is too long (R162). -/
theorem replyTo_eq_ok_iff {f : Frame} {t : U16} {c : Bytes} {r : Option Bytes} :
    replyTo f t c = .ok r ↔
      f.deviceIdRaw.length = 20 ∧ c.length ≤ 65504 ∧ r = some (composed f.version f.deviceIdRaw t c) := by
  unfold replyTo
  cases h : build f.version f.deviceIdRaw t c with
  | ok b =>
    obtain ⟨h1, h2, rfl⟩ := build_eq_ok_iff.mp h
    simp [h1, h2, eq_comm]
  | error e =>
    have := build_eq_error_iff.mp h
    simp only [false_iff, reduceCtorEq]
    omega

/-- With a 20-byte id no rule of R177 to R186 is refused: a reply's content has 0, 4 or 10 bytes (R162). -/
theorem replyLogin_ok {f : Frame} (h : f.deviceIdRaw.length = 20) (now : U32) :
    replyLogin f now = .ok (some (composed f.version f.deviceIdRaw typeLoginReply
      (loginAccepted ++ loginTimestamp f.content now))) :=
  replyTo_eq_ok_iff.mpr ⟨h, by simp [loginAccepted, length_loginTimestamp], rfl⟩

theorem replyHeartbeat_ok {f : Frame} (h : f.deviceIdRaw.length = 20) (now : U32) :
    replyHeartbeat f now = .ok (some (composed f.version f.deviceIdRaw typeHeartbeatReply [])) :=
  replyTo_eq_ok_iff.mpr ⟨h, by simp, rfl⟩

theorem replyHeartbeatLegacy_ok {f : Frame} (h : f.deviceIdRaw.length = 20) (now : U32) :
    replyHeartbeatLegacy f now = .ok (some (composed f.version f.deviceIdRaw typeHeartbeatReply [])) :=
  replyTo_eq_ok_iff.mpr ⟨h, by simp, rfl⟩

theorem replyAlarm_ok {f : Frame} (h : f.deviceIdRaw.length = 20) (hc : 4 ≤ f.content.length) (now : U32) :
    replyAlarm f now = .ok (some (composed f.version f.deviceIdRaw typeAlarmReply (f.content.take 4))) := by
  unfold replyAlarm
  rw [if_pos hc]
  exact replyTo_eq_ok_iff.mpr ⟨h, by simp, by simp⟩

theorem replyAlarm_none {f : Frame} (hc : f.content.length < 4) (now : U32) : replyAlarm f now = .ok none :=
  if_neg (by omega)

/-- A 20-byte id is enough for DISPATCH to answer (R162, R175). -/
theorem dispatch_ok {f : Frame} (h : f.deviceIdRaw.length = 20) (now : U32) : ∃ r, dispatch f now = .ok r := by
  unfold dispatch
  split_ifs
  · exact ⟨_, replyLogin_ok h now⟩
  · exact ⟨_, replyHeartbeat_ok h now⟩
  · exact ⟨_, replyHeartbeatLegacy_ok h now⟩
  · by_cases hc : 4 ≤ f.content.length
    · exact ⟨_, replyAlarm_ok h hc now⟩
    · exact ⟨_, replyAlarm_none (by omega) now⟩
  all_goals exact ⟨none, rfl⟩

/-- What `receive` can answer (R191, R192), said once. -/
theorem receive_next {F : Bytes} {rule : Frame → U32 → Except Refusal (Option Bytes)} {s t : State}
    (h : receive F rule s = .next t) :
    (parse F = .invalid ∧ t = s.deliver (.rx [.invalid F])) ∨
    (∃ p r, parse F = .frame p ∧ rule p (Config.wallClock s.draws) = .ok r ∧
      t = (s.setDraws (s.draws + 1)).deliver (.rx [.parsed p r])) := by
  unfold receive at h
  cases hp : parse F with
  | invalid => rw [hp] at h; exact .inl ⟨rfl, by simpa using h.symm⟩
  | frame p =>
    rw [hp] at h
    cases hr : rule p (Config.wallClock s.draws) with
    | ok r =>
      simp only [hr] at h
      exact .inr ⟨p, r, rfl, hr, by simpa using h.symm⟩
    | error e => simp [hr] at h

/-- What RX does with one item (R192), case by case. -/
theorem rxItem_discard (k : DiscardKind) (b : Bytes) (nows : List U32) (draws : Nat) :
    rxItem (.discard k b) nows draws = .ok (.discarded k b, nows, draws) := rfl

theorem rxItem_invalid {F : Bytes} (h : parse F = .invalid) (nows : List U32) (draws : Nat) :
    rxItem (.frame F) nows draws = .ok (.invalid F, nows, draws) := by
  simp only [rxItem, h]

theorem rxItem_parsed {F : Bytes} {p : Frame} {nows : List U32} {draws : Nat} {r : Option Bytes}
    (h : parse F = .frame p) (hr : dispatch p (nextNow nows draws).1 = .ok r) :
    rxItem (.frame F) nows draws = .ok (.parsed p r, (nextNow nows draws).2) := by
  simp only [rxItem, h, hr]

/-- One item is never refused: what PARSE returns has a 20-byte id (R144, R162). -/
theorem rxItem_ok (item : Item) (nows : List U32) (draws : Nat) : ∃ x, rxItem item nows draws = .ok x := by
  cases item with
  | discard k b => exact ⟨_, rxItem_discard k b nows draws⟩
  | frame F =>
    cases hp : parse F with
    | invalid => exact ⟨_, rxItem_invalid hp nows draws⟩
    | frame p =>
      obtain ⟨r, hr⟩ := dispatch_ok (length_deviceIdRaw_of_parse hp) (nextNow nows draws).1
      exact ⟨_, rxItem_parsed hp hr⟩

/-- RX's loop is never refused. -/
theorem rxItems_ok (items : List Item) (nows : List U32) (draws : Nat) : ∃ x, rxItems items nows draws = .ok x := by
  induction items generalizing nows draws with
  | nil => exact ⟨_, rfl⟩
  | cons item items ih =>
    obtain ⟨⟨r, nows', draws'⟩, h1⟩ := rxItem_ok item nows draws
    obtain ⟨⟨rs, d⟩, h2⟩ := ih nows' draws'
    exact ⟨(r :: rs, d), by simp only [rxItems, h1, h2]⟩

/-- RX always answers a next state (R192, R202). -/
theorem execRx_next (chunk : Bytes) (nows : List U32) (s : State) :
    ∃ rs d, rxItems (feed frontEndBounds s.buf chunk).1 nows s.draws = .ok (rs, d) ∧
      execRx chunk nows s =
        .next (((s.setBuf (feed frontEndBounds s.buf chunk).2).setDraws d).deliver (.rx rs)) := by
  obtain ⟨⟨rs, d⟩, h⟩ := rxItems_ok (feed frontEndBounds s.buf chunk).1 nows s.draws
  exact ⟨rs, d, h, by simp only [execRx, h]⟩

end Sys2Proof.Machine
end

