-- ==== Sys2Proof/Laws/Memory.lean ====
section
/-! SUPPORT. The laws of the instances' BUF store: the canonical form is kept by every write, a read after a write, and
equal reads make equal canonical stores. -/

namespace Sys2Proof.Machine

theorem Memory.wf_nil : Memory.wf [] := by simp [Memory.wf]

theorem Memory.wf_cons {k : Nat} {b : Bytes} {m : Memory} :
    Memory.wf ((k, b) :: m) ↔ (∀ p ∈ m, k < p.1) ∧ b ≠ [] ∧ Memory.wf m := by
  simp only [Memory.wf, List.pairwise_cons, List.mem_cons, forall_eq_or_imp]
  tauto

/-- Where every listed connection lies above `c`, `c` reads as unlisted. -/
theorem Memory.read_of_lt {c : Nat} {m : Memory} (h : ∀ p ∈ m, c < p.1) : Memory.read c m = [] := by
  induction m with
  | nil => rfl
  | cons p m ih =>
    obtain ⟨k, b⟩ := p
    have hk : c < k := h (k, b) (by simp)
    simp only [Memory.read, Nat.ne_of_gt hk, if_false]
    exact ih fun q hq => h q (by simp [hq])

/-- Every entry of a written store is the written one or was there before. -/
theorem Memory.mem_write {c : Nat} {v : Bytes} {m : Memory} {p : Nat × Bytes} (h : p ∈ Memory.write c v m) :
    (p = (c, v) ∧ v ≠ []) ∨ p ∈ m := by
  induction m with
  | nil =>
    by_cases hv : v = [] <;> simp_all [Memory.write]
  | cons q m ih =>
    obtain ⟨k, b⟩ := q
    unfold Memory.write at h
    split_ifs at h with h1 h2 h3 h4
    · rcases List.mem_cons.mp h with h | h
      · exact .inr (by simp [h])
      · rcases ih h with h | h
        · exact .inl h
        · exact .inr (by simp [h])
    · exact .inr (by simp [h])
    · rcases List.mem_cons.mp h with h | h
      · exact .inl ⟨h, h3⟩
      · exact .inr (by simp [h])
    · exact .inr h
    · rcases List.mem_cons.mp h with h | h
      · exact .inl ⟨h, h4⟩
      · exact .inr h

theorem Memory.write_wf {c : Nat} {v : Bytes} {m : Memory} (h : Memory.wf m) :
    Memory.wf (Memory.write c v m) := by
  induction m with
  | nil => by_cases hv : v = [] <;> simp [Memory.write, hv, Memory.wf]
  | cons q m ih =>
    obtain ⟨k, b⟩ := q
    obtain ⟨hlt, hb, hm⟩ := Memory.wf_cons.mp h
    unfold Memory.write
    split_ifs with h1 h2 h3 h4
    · refine Memory.wf_cons.mpr ⟨fun p hp => ?_, hb, ih hm⟩
      rcases Memory.mem_write hp with ⟨rfl, -⟩ | hp
      · exact h1
      · exact hlt p hp
    · exact hm
    · subst h2; exact Memory.wf_cons.mpr ⟨hlt, h3, hm⟩
    · exact h
    · refine Memory.wf_cons.mpr ⟨fun p hp => ?_, h4, h⟩
      have hck : c < k := by omega
      rcases List.mem_cons.mp hp with rfl | hp
      · exact hck
      · exact lt_trans hck (hlt p hp)

theorem Memory.read_write_same {c : Nat} {v : Bytes} {m : Memory} (h : Memory.wf m) :
    Memory.read c (Memory.write c v m) = v := by
  induction m with
  | nil => by_cases hv : v = [] <;> simp [Memory.write, hv, Memory.read]
  | cons q m ih =>
    obtain ⟨k, b⟩ := q
    obtain ⟨hlt, hb, hm⟩ := Memory.wf_cons.mp h
    unfold Memory.write
    split_ifs with h1 h2 h3 h4
    · simp only [Memory.read, Nat.ne_of_lt h1, if_false]; exact ih hm
    · subst h2; rw [h3]; exact Memory.read_of_lt hlt
    · simp [Memory.read]
    · rw [h4]
      refine Memory.read_of_lt fun p hp => ?_
      have hck : c < k := by omega
      rcases List.mem_cons.mp hp with rfl | hp
      · exact hck
      · exact lt_trans hck (hlt p hp)
    · simp [Memory.read]

theorem Memory.read_write_other {c d : Nat} {v : Bytes} {m : Memory} (h : d ≠ c) :
    Memory.read d (Memory.write c v m) = Memory.read d m := by
  induction m with
  | nil => by_cases hv : v = [] <;> simp [Memory.write, hv, Memory.read, Ne.symm h]
  | cons q m ih =>
    obtain ⟨k, b⟩ := q
    unfold Memory.write
    split_ifs with h1 h2 h3 h4
    · simp only [Memory.read, ih]
    · subst h2; simp [Memory.read, Ne.symm h]
    · subst h2; simp [Memory.read, Ne.symm h]
    · rfl
    · rw [Memory.read, if_neg (Ne.symm h)]

/-- Two canonical stores that read alike everywhere are the same list. -/
theorem Memory.ext_of_read {m n : Memory} (hm : Memory.wf m) (hn : Memory.wf n)
    (h : ∀ c, Memory.read c m = Memory.read c n) : m = n := by
  induction m generalizing n with
  | nil =>
    cases n with
    | nil => rfl
    | cons q n =>
      obtain ⟨k, b⟩ := q
      have := h k
      simp only [Memory.read, if_true] at this
      exact absurd this.symm (Memory.wf_cons.mp hn).2.1
  | cons p m ih =>
    obtain ⟨k, b⟩ := p
    obtain ⟨hlt, hb, hm'⟩ := Memory.wf_cons.mp hm
    cases n with
    | nil =>
      have := h k
      simp only [Memory.read, if_true] at this
      exact absurd this hb
    | cons q n =>
      obtain ⟨j, d⟩ := q
      obtain ⟨hlt', hd, hn'⟩ := Memory.wf_cons.mp hn
      have hkj : k = j := by
        rcases lt_trichotomy k j with hc | hc | hc
        · have := h k
          rw [Memory.read_of_lt (m := (j, d) :: n) (by
            intro p hp; rcases List.mem_cons.mp hp with rfl | hp
            · exact hc
            · exact lt_trans hc (hlt' p hp))] at this
          simp only [Memory.read, if_true] at this
          exact absurd this hb
        · exact hc
        · have := h j
          rw [Memory.read_of_lt (m := (k, b) :: m) (by
            intro p hp; rcases List.mem_cons.mp hp with rfl | hp
            · exact hc
            · exact lt_trans hc (hlt p hp))] at this
          simp only [Memory.read, if_true] at this
          exact absurd this.symm hd
      subst hkj
      have hbd : b = d := by simpa [Memory.read] using h k
      subst hbd
      congr 1
      refine ih hm' hn' fun c => ?_
      by_cases hc : k = c
      · subst hc; rw [Memory.read_of_lt hlt, Memory.read_of_lt hlt']
      · simpa [Memory.read, hc] using h c

/-- Writing what is there already changes nothing in a canonical store. -/
theorem Memory.write_read_self {c : Nat} {m : Memory} (h : Memory.wf m) :
    Memory.write c (Memory.read c m) m = m := by
  refine Memory.ext_of_read (Memory.write_wf h) h fun d => ?_
  by_cases hd : d = c
  · subst hd; exact Memory.read_write_same h
  · exact Memory.read_write_other hd

/-- An entry of a canonical store is what its connection reads as. -/
theorem Memory.read_of_mem {m : Memory} {p : Nat × Bytes} (h : Memory.wf m) (hp : p ∈ m) :
    Memory.read p.1 m = p.2 := by
  induction m with
  | nil => simp at hp
  | cons q m ih =>
    obtain ⟨k, b⟩ := q
    obtain ⟨hlt, -, hm⟩ := Memory.wf_cons.mp h
    rcases List.mem_cons.mp hp with rfl | hp
    · simp [Memory.read]
    · rw [Memory.read, if_neg (Nat.ne_of_lt (hlt p hp))]; exact ih hm hp

/-- What a connection reads as is `[]` or an entry of the store. -/
theorem Memory.read_eq_nil_or_mem (c : Nat) (m : Memory) :
    Memory.read c m = [] ∨ (c, Memory.read c m) ∈ m := by
  induction m with
  | nil => exact .inl rfl
  | cons q m ih =>
    obtain ⟨k, b⟩ := q
    by_cases hk : k = c
    · subst hk; exact .inr (by simp [Memory.read])
    · simp only [Memory.read, hk, if_false]
      exact ih.imp id (by simp +contextual)

theorem State.reset_mem_wf : State.reset.mem.wf := Memory.wf_nil

@[simp] theorem State.buf_setBuf {s : State} {v : Bytes} (h : s.mem.wf) : (s.setBuf v).buf = v :=
  Memory.read_write_same h

end Sys2Proof.Machine
end

