-- ==== Sys2Proof/Laws/PerInstr.lean ====
section
/-! SUPPORT. Statements made of every instruction, one lemma per constructor: how an instruction's bytes open, which is
what tells a wire frame from an operation (R60, R67; log 3). -/

namespace Sys2Proof.Laws.CommandOpening

open Sys2Proof Sys2Proof.Machine

/-- A frame row opens with the marker `40 40`, an operation with a selector 0 to 5. -/
def Statement (i : Instr) : Prop :=
  (i.isFrameRow = true → (encode i).take 2 = [0x40, 0x40]) ∧
  (i.isFrameRow = false → ∃ n : Nat, n < 6 ∧ (encode i).head? = some (BitVec.ofNat 8 n))

theorem login (w : WireFrame) : Statement (.login w) := ⟨fun _ => rfl, fun h => by cases h⟩
theorem logout (w : WireFrame) : Statement (.logout w) := ⟨fun _ => rfl, fun h => by cases h⟩
theorem heartbeat (w : WireFrame) : Statement (.heartbeat w) := ⟨fun _ => rfl, fun h => by cases h⟩
theorem gps (w : WireFrame) : Statement (.gps w) := ⟨fun _ => rfl, fun h => by cases h⟩
theorem pid (w : WireFrame) : Statement (.pid w) := ⟨fun _ => rfl, fun h => by cases h⟩
theorem alarm (w : WireFrame) : Statement (.alarm w) := ⟨fun _ => rfl, fun h => by cases h⟩
theorem heartbeatLegacy (w : WireFrame) : Statement (.heartbeatLegacy w) := ⟨fun _ => rfl, fun h => by cases h⟩
theorem loginReply (w : WireFrame) : Statement (.loginReply w) := ⟨fun _ => rfl, fun h => by cases h⟩
theorem heartbeatReply (w : WireFrame) : Statement (.heartbeatReply w) := ⟨fun _ => rfl, fun h => by cases h⟩
theorem alarmReply (w : WireFrame) : Statement (.alarmReply w) := ⟨fun _ => rfl, fun h => by cases h⟩
theorem other (t : U16) (w : WireFrame) : Statement (.other t w) := ⟨fun _ => rfl, fun h => by cases h⟩
theorem crc16 (S : Bytes) (o l : Nat) : Statement (.crc16 S o l) :=
  ⟨fun h => (by cases h), fun _ => ⟨0, by decide, rfl⟩⟩
theorem feed (c : Bytes) : Statement (.feed c) := ⟨fun h => (by cases h), fun _ => ⟨1, by decide, rfl⟩⟩
theorem parse (F : Bytes) : Statement (.parse F) := ⟨fun h => (by cases h), fun _ => ⟨2, by decide, rfl⟩⟩
theorem build (v : Byte) (id : Bytes) (t : U16) (c : Option Bytes) : Statement (.build v id t c) :=
  ⟨fun h => (by cases h), fun _ => ⟨3, by decide, rfl⟩⟩
theorem dispatch (f : ParseResult) (now : U32) : Statement (.dispatch f now) :=
  ⟨fun h => (by cases h), fun _ => ⟨4, by decide, rfl⟩⟩
theorem rx (c : Bytes) (nows : List U32) : Statement (.rx c nows) :=
  ⟨fun h => (by cases h), fun _ => ⟨5, by decide, rfl⟩⟩

end Sys2Proof.Laws.CommandOpening
end

