-- ==== Sys2Proof/Laws/Reassembler.lean ====
section
/-! SUPPORT. The laws of the reassembler: the marker scan, what one pass of FEED's loop can do (said once), and the shape
of an execFeed answer. -/

namespace Sys2Proof.Machine

theorem markerAt_iff_byteAt {S : Bytes} {k : Nat} (h : k + 1 < S.length) :
    MarkerAt S k ↔ byteAt S k = markByte ∧ byteAt S (k + 1) = markByte := by
  simp [MarkerAt, getElem?_of_lt h, getElem?_of_lt (show k < S.length by omega), markByte]

/-- A marker lies wholly inside the sequence (R113). -/
theorem MarkerAt.lt {S : Bytes} {k : Nat} (h : MarkerAt S k) : k + 1 < S.length := by
  by_contra hc
  simp [MarkerAt, List.getElem?_eq_none (show S.length ≤ k + 1 by omega)] at h

@[simp] theorem markerAt_cons_succ {a : Byte} {S : Bytes} {k : Nat} :
    MarkerAt (a :: S) (k + 1) ↔ MarkerAt S k := by
  simp [MarkerAt]

/-- The scan finds the least index of a marker (R113). -/
theorem findMarker_eq_some {S : Bytes} {k : Nat} (h : findMarker S = some k) :
    MarkerAt S k ∧ ∀ j < k, ¬ MarkerAt S j := by
  induction S generalizing k with
  | nil => simp [findMarker] at h
  | cons a S ih =>
    cases S with
    | nil => simp [findMarker] at h
    | cons b S =>
      unfold findMarker at h
      split_ifs at h with hm
      · obtain rfl : 0 = k := by simpa using h
        obtain ⟨rfl, rfl⟩ := hm
        exact ⟨by simp [MarkerAt, markByte], by simp⟩
      · obtain ⟨n, hn, rfl⟩ : ∃ n, findMarker (b :: S) = some n ∧ n + 1 = k := by simpa using h
        obtain ⟨h1, h2⟩ := ih hn
        refine ⟨markerAt_cons_succ.mpr h1, fun j hj => ?_⟩
        cases j with
        | zero => simpa [MarkerAt, markByte] using hm
        | succ j => exact fun hc => h2 j (by omega) (markerAt_cons_succ.mp hc)

/-- The scan fails exactly where there is no marker (R113). -/
theorem findMarker_eq_none {S : Bytes} (h : findMarker S = none) : NoMarker S := by
  induction S with
  | nil => intro k hk; simp [MarkerAt] at hk
  | cons a S ih =>
    cases S with
    | nil => intro k hk; have := hk.lt; simp at this
    | cons b S =>
      unfold findMarker at h
      split_ifs at h with hm
      have hn : findMarker (b :: S) = none := by simpa using h
      intro k hk
      cases k with
      | zero => exact hm (by simpa [MarkerAt, markByte] using hk)
      | succ k => exact ih hn k (markerAt_cons_succ.mp hk)

/-- What one pass of FEED's loop can do (R111 to R116), said once: it stops with too few bytes, stops with a partial
frame, drops all but the last byte, or takes a non-empty front off as an item. -/
theorem pass_cases (b : Bounds) (buf : Bytes) :
    (buf.length < 4 ∧ pass b buf = .stop [] buf) ∨
    (4 ≤ buf.length ∧ MarkerAt buf 0 ∧ b.lenMin ≤ (readLE16 buf 2).toNat ∧ (readLE16 buf 2).toNat ≤ b.lenMax ∧
      buf.length < (readLE16 buf 2).toNat ∧ pass b buf = .stop [] buf) ∨
    (4 ≤ buf.length ∧ NoMarker buf ∧
      pass b buf = .stop [.discard .NOMARKER (buf.take (buf.length - 1))] (buf.drop (buf.length - 1))) ∨
    (4 ≤ buf.length ∧ ∃ k, 0 < k ∧ MarkerAt buf k ∧ (∀ j < k, ¬ MarkerAt buf j) ∧
      pass b buf = .again (.discard .PREFIX (buf.take k)) (buf.drop k)) ∨
    (4 ≤ buf.length ∧ MarkerAt buf 0 ∧ ((readLE16 buf 2).toNat < b.lenMin ∨ b.lenMax < (readLE16 buf 2).toNat) ∧
      pass b buf = .again (.discard .SPURIOUS (buf.take 2)) (buf.drop 2)) ∨
    (4 ≤ buf.length ∧ MarkerAt buf 0 ∧ b.lenMin ≤ (readLE16 buf 2).toNat ∧ (readLE16 buf 2).toNat ≤ b.lenMax ∧
      (readLE16 buf 2).toNat ≤ buf.length ∧
      pass b buf = .again (.frame (buf.take (readLE16 buf 2).toNat)) (buf.drop (readLE16 buf 2).toNat)) := by
  by_cases h4 : buf.length < 4
  · exact .inl ⟨h4, by simp [pass, rsmMinBytes, h4]⟩
  have h4' : 4 ≤ buf.length := by omega
  have hlen : ¬ buf.length < rsmMinBytes := h4
  by_cases hm : byteAt buf 0 ≠ markByte ∨ byteAt buf 1 ≠ markByte
  · have hm0 : ¬ MarkerAt buf 0 := by
      rw [markerAt_iff_byteAt (by omega)]; tauto
    cases hf : findMarker buf with
    | none =>
      refine .inr (.inr (.inl ⟨h4', findMarker_eq_none hf, ?_⟩))
      unfold pass; rw [if_neg hlen, if_pos hm, hf]; simp
    | some k =>
      obtain ⟨h1, h2⟩ := findMarker_eq_some hf
      refine .inr (.inr (.inr (.inl ⟨h4', k, ?_, h1, h2, ?_⟩)))
      · exact Nat.pos_of_ne_zero fun h0 => hm0 (h0 ▸ h1)
      · unfold pass; rw [if_neg hlen, if_pos hm, hf]; simp
  · have hm0 : MarkerAt buf 0 := by
      rw [markerAt_iff_byteAt (by omega)]; tauto
    by_cases hb : (readLE16 buf 2).toNat < b.lenMin ∨ b.lenMax < (readLE16 buf 2).toNat
    · refine .inr (.inr (.inr (.inr (.inl ⟨h4', hm0, hb, ?_⟩))))
      unfold pass; rw [if_neg hlen, if_neg hm, if_pos hb]; simp
    · by_cases hl : buf.length < (readLE16 buf 2).toNat
      · refine .inr (.inl ⟨h4', hm0, by omega, by omega, hl, ?_⟩)
        unfold pass; rw [if_neg hlen, if_neg hm, if_neg hb, if_pos hl]
      · refine .inr (.inr (.inr (.inr (.inr ⟨h4', hm0, by omega, by omega, by omega, ?_⟩))))
        unfold pass; rw [if_neg hlen, if_neg hm, if_neg hb, if_neg hl]; simp

@[simp] theorem extract_zero (b : Bounds) (buf : Bytes) : extract b 0 buf = ([], buf) := rfl

theorem extract_stop {b : Bounds} {n : Nat} {buf rest : Bytes} {items : List Item}
    (h : pass b buf = .stop items rest) : extract b (n + 1) buf = (items, rest) := by
  simp [extract, h]

theorem extract_again {b : Bounds} {n : Nat} {buf rest : Bytes} {item : Item}
    (h : pass b buf = .again item rest) :
    extract b (n + 1) buf = (item :: (extract b n rest).1, (extract b n rest).2) := by
  simp [extract, h]

/-- A chunk counts only through the buffer it is appended to (R110). -/
theorem feed_eq_append (b : Bounds) (buf chunk : Bytes) : feed b buf chunk = feed b (buf ++ chunk) [] := by
  simp [feed]

@[simp] theorem framesOf_nil : framesOf [] = [] := rfl

@[simp] theorem framesOf_append (xs ys : List Item) : framesOf (xs ++ ys) = framesOf xs ++ framesOf ys := by
  simp [framesOf]

/-- FEED always answers a next state (R110, R119): the residue is written, the items are returned. -/
theorem execFeed_eq (chunk : Bytes) (s : State) :
    execFeed chunk s = .next ((s.setBuf (feed frontEndBounds s.buf chunk).2).deliver
      (.items (feed frontEndBounds s.buf chunk).1)) := rfl

end Sys2Proof.Machine
end

