-- ==== Sys2Proof/Tests/Slice0.lean ====
section
/-! SUPPORT. The model's own tests: the WellFormed smoke test, a command of every row written out from the spec's encoding,
one step on small states with the values of 95_test_vectors.md, and for every statement with hypotheses a state and operands
that meet them. -/

namespace Sys2Proof.Tests

open Sys2Proof Sys2Proof.Machine

/-- Bytes written as numbers. -/
def bs (l : List Nat) : Bytes := l.map (BitVec.ofNat 8)

/-- The `id` of 95_test_vectors.md: "TEST0001" and twelve NUL. -/
def id0 : Bytes := bs [0x54, 0x45, 0x53, 0x54, 0x30, 0x30, 0x30, 0x31, 0, 0, 0, 0, 0, 0, 0, 0, 0, 0, 0, 0]

/-- A frame of version 04 and `id0`: the length's low byte, then the bytes from the type on (95_test_vectors.md 2.5). -/
def frame0 (len : Nat) (tail : List Nat) : Bytes := bs [0x40, 0x40, len, 0x00, 0x04] ++ id0 ++ bs tail

/-- The free fields of such a frame. -/
def wire0 (content : List Nat) (checksum : U16) : WireFrame := ⟨0x04, id0, bs content, checksum, 0x0D, 0x0A⟩

/-- A state whose connection 3 holds `buf`, acting for connection 3. -/
def st (buf : List Nat) : State := { State.reset with mem := if buf = [] then [] else [(3, bs buf)], conn := 3 }

/-- The next state, if there is one. -/
def next? (x : StepOutcome) : Option State :=
  match x with
  | .next t => some t
  | .fault _ => none
  | .refused _ => none

/-- The refusal, if it is one. -/
def refusal? (x : StepOutcome) : Option Refusal :=
  match x with
  | .next _ => none
  | .fault _ => none
  | .refused r => some r

/-- What the last completed instruction returned. -/
def last? (x : StepOutcome) : Option Result := (next? x).bind fun t => t.returned.getLast?.map (·.2)

/-- The residue in the acting connection's BUF. -/
def buf? (x : StepOutcome) : Option Bytes := (next? x).map State.buf

/-- The reply of a result, if it is one PARSED result with a reply. -/
def reply? (x : StepOutcome) : Option Bytes :=
  match last? x with
  | some (.rx [.parsed _ (some out)]) => some out
  | some (.reply (some out)) => some out
  | _ => none

/-! ## WellFormed refuses what it checks -/

theorem test_wf_refuses_short_id : (Instr.login ⟨0, [], [], 0, 0, 0⟩).wellFormed = false := by decide
theorem test_wf_refuses_long_content (c : Bytes) (h : c.length = 65505) :
    WireFrame.wellFormed ⟨0, id0, c, 0, 0, 0⟩ = false := by
  simp [WireFrame.wellFormed, Machine.contentMax, h]
theorem test_wf_refuses_named_type : (Instr.other 0x1001 (wire0 [] 0)).wellFormed = false := by decide
/-- An operation's operands are of any length (R68). -/
theorem test_wf_accepts_any_sequence (S : Bytes) (n : Nat) :
    (Instr.parse S).wellFormed = true ∧ (Instr.crc16 S n n).wellFormed = true := ⟨rfl, rfl⟩
theorem test_wf_accepts_login : (Instr.login (wire0 [1, 2] 0)).wellFormed = true := by decide

/-! ## A command of every row, written out (frames: 95_test_vectors.md 2.5; operations: R67's selector, log 3) -/

theorem test_decode_login :
    decode (frame0 0x27 [0x10, 0x01, 0x10, 0x20, 0x30, 0x40, 0xC2, 0xB1, 0xA0, 0x65, 0xF8, 0x69, 0x0D, 0x0A]) =
      .ok (.login (wire0 [0x10, 0x20, 0x30, 0x40, 0xC2, 0xB1, 0xA0, 0x65] 0x69F8)) := by rfl
theorem test_decode_logout :
    decode (frame0 0x1F [0x10, 0x02, 0x5A, 0x11, 0x0D, 0x0A]) = .ok (.logout (wire0 [] 0x115A)) := by rfl
theorem test_decode_heartbeat :
    decode (frame0 0x1F [0x10, 0x03, 0xD3, 0x00, 0x0D, 0x0A]) = .ok (.heartbeat (wire0 [] 0x00D3)) := by rfl
theorem test_decode_gps :
    decode (frame0 0x22 [0x40, 0x01, 0x01, 0x02, 0x03, 0xE2, 0x94, 0x0D, 0x0A]) =
      .ok (.gps (wire0 [1, 2, 3] 0x94E2)) := by rfl
theorem test_decode_pid :
    decode (frame0 0x20 [0x40, 0x02, 0x05, 0xC9, 0x27, 0x0D, 0x0A]) = .ok (.pid (wire0 [5] 0x27C9)) := by rfl
theorem test_decode_alarm :
    decode (frame0 0x25 [0x40, 0x07, 0x2A, 0x00, 0x00, 0x00, 0x01, 0x02, 0x41, 0xB6, 0x0D, 0x0A]) =
      .ok (.alarm (wire0 [0x2A, 0, 0, 0, 1, 2] 0xB641)) := by rfl
theorem test_decode_heartbeatLegacy :
    decode (frame0 0x1F [0x60, 0x01, 0x05, 0xD3, 0x0D, 0x0A]) = .ok (.heartbeatLegacy (wire0 [] 0xD305)) := by rfl
theorem test_decode_loginReply :
    decode (frame0 0x29 [0x90, 0x01, 0xFF, 0xFF, 0xFF, 0xFF, 0, 0, 0xC2, 0xB1, 0xA0, 0x65, 0x75, 0xC8, 0x0D, 0x0A]) =
      .ok (.loginReply (wire0 [0xFF, 0xFF, 0xFF, 0xFF, 0, 0, 0xC2, 0xB1, 0xA0, 0x65] 0xC875)) := by rfl
theorem test_decode_heartbeatReply :
    decode (frame0 0x1F [0x90, 0x03, 0x1F, 0x8C, 0x0D, 0x0A]) = .ok (.heartbeatReply (wire0 [] 0x8C1F)) := by rfl
theorem test_decode_alarmReply :
    decode (frame0 0x23 [0xC0, 0x07, 0x2A, 0x00, 0x00, 0x00, 0x6D, 0x23, 0x0D, 0x0A]) =
      .ok (.alarmReply (wire0 [0x2A, 0, 0, 0] 0x236D)) := by rfl
theorem test_decode_other :
    decode (frame0 0x1F [0xAB, 0xCD, 0x67, 0xF1, 0x0D, 0x0A]) = .ok (.other 0xABCD (wire0 [] 0xF167)) := by rfl
theorem test_decode_crc16 :
    decode (bs [0x00, 1, 2, 4, 0x41, 0x42, 0x43, 0x44]) =
      .ok (.crc16 (bs [0x41, 0x42, 0x43, 0x44]) 1 2) := by rfl
theorem test_decode_feed : decode (bs [0x01, 2, 0x40, 0x41]) = .ok (.feed (bs [0x40, 0x41])) := by rfl
theorem test_decode_parse : decode (bs [0x02, 1, 0x40]) = .ok (.parse (bs [0x40])) := by rfl
theorem test_decode_build :
    decode (bs [0x03, 0x04, 0x90, 0x03, 0] ++ id0 ++ bs [0x01, 1, 0xAA]) =
      .ok (.build 0x04 id0 0x9003 (some (bs [0xAA]))) := by rfl
theorem test_decode_dispatch :
    decode (bs [0x04, 0x00, 0x04, 0] ++ id0 ++
        bs [1, 0x54, 0x10, 0x03, 0, 2, 0x40, 0x40, 0x01, 0x78, 0x56, 0x34, 0x12]) =
      .ok (.dispatch (.frame ⟨0x04, id0, bs [0x54], 0x1003, [], bs [0x40, 0x40], true⟩) 0x12345678) := by rfl
theorem test_decode_rx :
    decode (bs [0x05, 1, 0x40, 1, 0x78, 0x56, 0x34, 0x12]) =
      .ok (.rx (bs [0x40]) [0x12345678]) := by rfl
theorem test_decode_rejects :
    decode [] = .error .noCommand ∧ decode (bs [0x06]) = .error (.unknownSelector 0x06) ∧
      decode (bs [0x01, 2, 0x40]) = .error .truncated ∧
      decode (bs [0x01, 0, 0x40]) = .error .trailing ∧ decode (bs [0x04, 2]) = .error .badForm ∧
      decode (bs [0x40, 0x41]) = .error .badMarker ∧ decode (bs [0x40, 0x40]) = .error .shortFrame ∧
      decode (frame0 0x20 [0x10, 0x03, 0xD3, 0x00, 0x0D, 0x0A]) = .error .lengthMismatch := by
  refine ⟨rfl, rfl, rfl, rfl, rfl, rfl, rfl, rfl⟩

/-- An encoding of an instruction with every kind of operand, against bytes written out. -/
theorem test_encode_dispatch :
    encode (.dispatch (.frame ⟨0x04, id0, bs [0x54], 0x1003, [], bs [0x40, 0x40], true⟩) 0x12345678) =
      bs [0x04, 0x00, 0x04, 0] ++ id0 ++
        bs [1, 0x54, 0x10, 0x03, 0, 2, 0x40, 0x40, 0x01, 0x78, 0x56, 0x34, 0x12] := by
  decide +kernel
/-- Counts at the ends of a byte, and ids of 0, 20 and 21 bytes (log 3). -/
theorem test_counts :
    (putCount 0, putCount 254, putCount 255, putCount 510) = (bs [0], bs [0xFE], bs [0xFF, 0], bs [0xFF, 0xFF, 0]) ∧
      (idCount 0, idCount 20, idCount 21) = (20, 0, 21) := by decide +kernel
/-- A natural of more than 32 bits is read back. -/
theorem test_large_count : takeCount (putCount (2 ^ 40) ++ [0x41]) = .ok (2 ^ 40, [0x41]) :=
  takeCount_putCount _ _

/-! ## TABLE (40_crc.md R93, all 256 entries) -/

def table0 : List U16 :=
  [0x0000, 0x1021, 0x2042, 0x3063, 0x4084, 0x50A5, 0x60C6, 0x70E7, 0x8108, 0x9129, 0xA14A, 0xB16B, 0xC18C, 0xD1AD, 0xE1CE, 0xF1EF] ++
  [0x1231, 0x0210, 0x3273, 0x2252, 0x52B5, 0x4294, 0x72F7, 0x62D6, 0x9339, 0x8318, 0xB37B, 0xA35A, 0xD3BD, 0xC39C, 0xF3FF, 0xE3DE] ++
  [0x2462, 0x3443, 0x0420, 0x1401, 0x64E6, 0x74C7, 0x44A4, 0x5485, 0xA56A, 0xB54B, 0x8528, 0x9509, 0xE5EE, 0xF5CF, 0xC5AC, 0xD58D] ++
  [0x3653, 0x2672, 0x1611, 0x0630, 0x76D7, 0x66F6, 0x5695, 0x46B4, 0xB75B, 0xA77A, 0x9719, 0x8738, 0xF7DF, 0xE7FE, 0xD79D, 0xC7BC]

def table1 : List U16 :=
  [0x48C4, 0x58E5, 0x6886, 0x78A7, 0x0840, 0x1861, 0x2802, 0x3823, 0xC9CC, 0xD9ED, 0xE98E, 0xF9AF, 0x8948, 0x9969, 0xA90A, 0xB92B] ++
  [0x5AF5, 0x4AD4, 0x7AB7, 0x6A96, 0x1A71, 0x0A50, 0x3A33, 0x2A12, 0xDBFD, 0xCBDC, 0xFBBF, 0xEB9E, 0x9B79, 0x8B58, 0xBB3B, 0xAB1A] ++
  [0x6CA6, 0x7C87, 0x4CE4, 0x5CC5, 0x2C22, 0x3C03, 0x0C60, 0x1C41, 0xEDAE, 0xFD8F, 0xCDEC, 0xDDCD, 0xAD2A, 0xBD0B, 0x8D68, 0x9D49] ++
  [0x7E97, 0x6EB6, 0x5ED5, 0x4EF4, 0x3E13, 0x2E32, 0x1E51, 0x0E70, 0xFF9F, 0xEFBE, 0xDFDD, 0xCFFC, 0xBF1B, 0xAF3A, 0x9F59, 0x8F78]

def table2 : List U16 :=
  [0x9188, 0x81A9, 0xB1CA, 0xA1EB, 0xD10C, 0xC12D, 0xF14E, 0xE16F, 0x1080, 0x00A1, 0x30C2, 0x20E3, 0x5004, 0x4025, 0x7046, 0x6067] ++
  [0x83B9, 0x9398, 0xA3FB, 0xB3DA, 0xC33D, 0xD31C, 0xE37F, 0xF35E, 0x02B1, 0x1290, 0x22F3, 0x32D2, 0x4235, 0x5214, 0x6277, 0x7256] ++
  [0xB5EA, 0xA5CB, 0x95A8, 0x8589, 0xF56E, 0xE54F, 0xD52C, 0xC50D, 0x34E2, 0x24C3, 0x14A0, 0x0481, 0x7466, 0x6447, 0x5424, 0x4405] ++
  [0xA7DB, 0xB7FA, 0x8799, 0x97B8, 0xE75F, 0xF77E, 0xC71D, 0xD73C, 0x26D3, 0x36F2, 0x0691, 0x16B0, 0x6657, 0x7676, 0x4615, 0x5634]

def table3 : List U16 :=
  [0xD94C, 0xC96D, 0xF90E, 0xE92F, 0x99C8, 0x89E9, 0xB98A, 0xA9AB, 0x5844, 0x4865, 0x7806, 0x6827, 0x18C0, 0x08E1, 0x3882, 0x28A3] ++
  [0xCB7D, 0xDB5C, 0xEB3F, 0xFB1E, 0x8BF9, 0x9BD8, 0xABBB, 0xBB9A, 0x4A75, 0x5A54, 0x6A37, 0x7A16, 0x0AF1, 0x1AD0, 0x2AB3, 0x3A92] ++
  [0xFD2E, 0xED0F, 0xDD6C, 0xCD4D, 0xBDAA, 0xAD8B, 0x9DE8, 0x8DC9, 0x7C26, 0x6C07, 0x5C64, 0x4C45, 0x3CA2, 0x2C83, 0x1CE0, 0x0CC1] ++
  [0xEF1F, 0xFF3E, 0xCF5D, 0xDF7C, 0xAF9B, 0xBFBA, 0x8FD9, 0x9FF8, 0x6E17, 0x7E36, 0x4E55, 0x5E74, 0x2E93, 0x3EB2, 0x0ED1, 0x1EF0]

theorem test_table :
    (List.range 256).map (fun i => TABLE (BitVec.ofNat 8 i)) = table0 ++ table1 ++ table2 ++ table3 := by
  decide +kernel

theorem test_reflections :
    reflect8 0x0D = 0xB0 ∧ reflect8 0x31 = 0x8C ∧ reflect16 0xCAB2 = 0x4D53 ∧ reflect16 0x1234 = 0x2C48 := by
  decide +kernel

/-! ## One step or one instruction (values of 95_test_vectors.md and of the worked examples of the rules) -/

theorem test_crc16_check_string :
    last? (exec (.crc16 (bs [0x31, 0x32, 0x33, 0x34, 0x35, 0x36, 0x37, 0x38, 0x39]) 0 9) State.reset) =
      some (.crc 0x906E) := by decide +kernel
theorem test_crc16_out_of_range :
    refusal? (exec (.crc16 (bs [0x41, 0x42, 0x43, 0x44]) 3 2) State.reset) = some (.crcRange 3 2 4) := by
  decide +kernel
theorem test_crc16_equal_forms :
    crcRangeSerial (bs [0x41, 0x42, 0x43, 0x44]) 1 2 = 0x0A0E ∧
      crcRangeReflected (bs [0x41, 0x42, 0x43, 0x44]) 1 2 = 0x0A0E ∧
      crcRangeReflectedTable (bs [0x41, 0x42, 0x43, 0x44]) 1 2 = 0x0A0E := by decide +kernel

/-- R127, last row. -/
theorem test_feed_spurious_then_prefix_then_frame :
    last? (exec (.feed (bs [0x40, 0x40, 0xFF, 0xFF, 0x40, 0x40, 0x08, 0x00, 0xAA, 0xBB, 0xCC, 0xDD])) (st [])) =
      some (.items [.discard .SPURIOUS (bs [0x40, 0x40]), .discard .PREFIX (bs [0xFF, 0xFF]),
        .frame (bs [0x40, 0x40, 0x08, 0x00, 0xAA, 0xBB, 0xCC, 0xDD])]) := by decide +kernel
/-- R29: the kept byte `40` completes a marker with the next chunk. -/
theorem test_feed_kept_byte :
    buf? (exec (.feed (bs [0xAA, 0xBB, 0xCC, 0x40])) (st [])) = some (bs [0x40]) ∧
      buf? (exec (.feed (bs [0x40, 0x1F, 0x00])) (st [0x40])) = some (bs [0x40, 0x40, 0x1F, 0x00]) := by
  decide +kernel

/-- R153. -/
theorem test_parse_login :
    last? (exec (.parse (frame0 0x27
        [0x10, 0x01, 0x10, 0x20, 0x30, 0x40, 0xC2, 0xB1, 0xA0, 0x65, 0xF8, 0x69, 0x0D, 0x0A])) State.reset) =
      some (.parse (.frame
        ⟨0x04, id0, bs [0x54, 0x45, 0x53, 0x54, 0x30, 0x30, 0x30, 0x31], 0x1001,
          bs [0x10, 0x20, 0x30, 0x40, 0xC2, 0xB1, 0xA0, 0x65],
          frame0 0x27 [0x10, 0x01, 0x10, 0x20, 0x30, 0x40, 0xC2, 0xB1, 0xA0, 0x65, 0xF8, 0x69, 0x0D, 0x0A], true⟩)) := by
  decide +kernel
/-- 95_test_vectors.md 2.6: a frame that declares 32 and has 31 bytes. -/
theorem test_parse_mismatch :
    last? (exec (.parse (frame0 0x20 [0x10, 0x03, 0xD3, 0x00, 0x0D, 0x0A])) State.reset) =
      some (.parse .invalid) := by decide +kernel

/-- R160's worked example, content absent. -/
theorem test_build_heartbeat_reply :
    last? (exec (.build 0x04 id0 0x9003 none) State.reset) =
      some (.bytes (frame0 0x1F [0x90, 0x03, 0x1F, 0x8C, 0x0D, 0x0A])) := by decide +kernel
theorem test_build_short_id :
    refusal? (exec (.build 0x04 (bs [1, 2]) 0x9003 none) State.reset) = some (.buildId 2) := by decide +kernel

/-- 95_test_vectors.md 2.7: a LOGIN with 7 content bytes takes NOW. -/
theorem test_dispatch_login_now :
    reply? (exec (.dispatch (.frame ⟨0x04, id0, [], 0x1001, bs [0x10, 0x20, 0x30, 0x40, 0xC2, 0xB1, 0xA0], [], false⟩)
        0x12345678) State.reset) =
      some (frame0 0x29 [0x90, 0x01, 0xFF, 0xFF, 0xFF, 0xFF, 0, 0, 0x78, 0x56, 0x34, 0x12, 0xE6, 0x89, 0x0D, 0x0A]) := by
  decide +kernel
theorem test_dispatch_invalid :
    refusal? (exec (.dispatch .invalid 0) State.reset) = some .dispatchInvalid := by decide +kernel

/-- Program P3 of 95_test_vectors.md, without its legacy heartbeat: five results, the BUF `40`. -/
theorem test_rx_results_in_order :
    last? (exec (.rx (bs [0x40, 0x40, 0xFF, 0xFF, 0x40, 0x40, 0x08, 0x00, 0xAA, 0xBB, 0xCC, 0xDD] ++
        bs [0x99, 0x98, 0x97, 0x40]) []) (st [])) =
      some (.rx [.discarded .SPURIOUS (bs [0x40, 0x40]), .discarded .PREFIX (bs [0xFF, 0xFF]),
        .invalid (bs [0x40, 0x40, 0x08, 0x00, 0xAA, 0xBB, 0xCC, 0xDD]),
        .discarded .NOMARKER (bs [0x99, 0x98, 0x97])]) := by decide +kernel
/-- Program P1, step 2: the reply to a LOGIN split over two reads. -/
theorem test_rx_split_login :
    reply? (exec (.rx (bs [0, 0, 0, 0, 0, 0, 0, 0, 0, 0, 0, 0, 0x10, 0x01, 0x10, 0x20, 0x30, 0x40] ++
        bs [0xC2, 0xB1, 0xA0, 0x65, 0xF8, 0x69, 0x0D, 0x0A]) [])
        (st [0x40, 0x40, 0x27, 0x00, 0x04, 0x54, 0x45, 0x53, 0x54, 0x30, 0x30, 0x30, 0x31])) =
      some (frame0 0x29 [0x90, 0x01, 0xFF, 0xFF, 0xFF, 0xFF, 0, 0, 0xC2, 0xB1, 0xA0, 0x65, 0x75, 0xC8, 0x0D, 0x0A]) := by
  decide +kernel

theorem test_login :
    reply? (exec (.login (wire0 [0x10, 0x20, 0x30, 0x40, 0xC2, 0xB1, 0xA0, 0x65] 0x69F8)) State.reset) =
      some (frame0 0x29 [0x90, 0x01, 0xFF, 0xFF, 0xFF, 0xFF, 0, 0, 0xC2, 0xB1, 0xA0, 0x65, 0x75, 0xC8, 0x0D, 0x0A]) := by
  decide +kernel
theorem test_heartbeat :
    reply? (exec (.heartbeat (wire0 [] 0x00D3)) State.reset) =
      some (frame0 0x1F [0x90, 0x03, 0x1F, 0x8C, 0x0D, 0x0A]) := by decide +kernel
/-- R181: the legacy heartbeat's reply has type `0x9003`; the request's checksum is wrong (program P3). -/
theorem test_heartbeatLegacy :
    reply? (exec (.heartbeatLegacy (wire0 [] 0xD3FA)) State.reset) =
      some (frame0 0x1F [0x90, 0x03, 0x1F, 0x8C, 0x0D, 0x0A]) := by decide +kernel
theorem test_alarm :
    reply? (exec (.alarm (wire0 [0x2A, 0, 0, 0, 1, 2] 0xB641)) State.reset) =
      some (frame0 0x23 [0xC0, 0x07, 0x2A, 0, 0, 0, 0x6D, 0x23, 0x0D, 0x0A]) := by decide +kernel
theorem test_alarm_short : reply? (exec (.alarm (wire0 [0x2A, 0, 0] 0xF4CE)) State.reset) = none := by decide +kernel

/-- The rows without a reply: one PARSED result with `none`. -/
def noReply (i : Instr) : Bool :=
  match last? (exec i State.reset) with
  | some (.rx [.parsed _ none]) => true
  | _ => false

theorem test_no_reply_rows :
    noReply (.logout (wire0 [] 0x115A)) = true ∧ noReply (.gps (wire0 [1, 2, 3] 0x94E2)) = true ∧
      noReply (.pid (wire0 [5] 0x27C9)) = true ∧ noReply (.loginReply (wire0 [] 0)) = true ∧
      noReply (.heartbeatReply (wire0 [] 0)) = true ∧ noReply (.alarmReply (wire0 [0x2A, 0, 0, 0] 0)) = true ∧
      noReply (.other 0xABCD (wire0 [] 0xF167)) = true := by decide +kernel

/-- A step on another connection's event, and the end of a connection (program P7's isolation, R233). -/
theorem test_step_feed_and_close :
    (next? (step { st [0x40, 0x40] with pending := [.invoke 7 (bs [0x01, 1, 0x41])] })).map State.mem =
        some [(3, bs [0x40, 0x40]), (7, bs [0x41])] ∧
      (next? (step { st [0x40, 0x40] with pending := [.close 3] })).map State.mem = some [] := by decide +kernel

theorem test_step_invalid_frame :
    last? (step { st [] with pending := [.invoke 3 (bs [0x40, 0x40, 0x08, 0x00, 0xAA, 0xBB, 0xCC, 0xDD])] }) =
      some (.rx [.invalid (bs [0x40, 0x40, 0x08, 0x00, 0xAA, 0xBB, 0xCC, 0xDD])]) := by decide +kernel

/-- Every row of the opcode table, by its word: decoded, and run as the first instruction after reset. -/
theorem test_table_words_run :
    ([0x1001, 0x1002, 0x1003, 0x4001, 0x4002, 0x4007, 0x6001, 0x9001, 0x9003, 0xC007, 0x0000].all fun w =>
        (decodeTableWord 16 w).isSome && (next? (step (State.reset.withFetchWord 16 w))).isSome) = true ∧
      ([0, 1, 2, 3, 4, 5].all fun w =>
        (decodeTableWord 8 w).isSome && (next? (step (State.reset.withFetchWord 8 w))).isSome) = true := by
  decide +kernel

/-! ## Statements with hypotheses: a state and operands that meet all of them together -/

/-- The frame `40 40 08 00 AA BB CC DD`, the shortest the bounds admit. -/
def short8 : Bytes := bs [0x40, 0x40, 0x08, 0x00, 0xAA, 0xBB, 0xCC, 0xDD]
/-- The HEARTBEAT frame of 95_test_vectors.md 2.5. -/
def hb : Bytes := frame0 0x1F [0x10, 0x03, 0xD3, 0x00, 0x0D, 0x0A]
/-- A Frame record of type `t`. -/
def rec0 (t : U16) (content : List Nat) : Frame := ⟨0x04, id0, [], t, bs content, [], true⟩

theorem frontEndBounds_valid : frontEndBounds.Valid := by decide
theorem st_wf (l : List Nat) : (st l).mem.wf := by
  unfold st
  by_cases h : l = []
  · simp [h, Memory.wf]
  · simp [h, Memory.wf, bs]
theorem validFrame_short8 : ValidFrame frontEndBounds short8 := by
  refine ⟨by decide, ⟨rfl, rfl⟩, by decide +kernel, by decide, by decide⟩
theorem validFrame_hb : ValidFrame frontEndBounds hb := by
  refine ⟨by decide, ⟨rfl, rfl⟩, by decide +kernel, by decide, by decide⟩

theorem witness_DecodeInvertsEncode :
    (Instr.other 0x3400 (wire0 [1] 2)).wellFormed = true ∧
      (Instr.rx (bs [1]) [0xFFFFFFFF]).wellFormed = true ∧ (Instr.crc16 [] (2 ^ 32) 0).wellFormed = true ∧
      (Instr.build 0 id0 0 (some [])).wellFormed = true ∧
      (Instr.dispatch (.frame (rec0 0 [])) 0).wellFormed = true := by decide +kernel
theorem witness_EncodeInvertsDecode : decode (bs [0x02, 1, 0x40]) = .ok (.parse (bs [0x40])) := by rfl
theorem witness_StepRunsDecodedCommand :
    { st [0x40] with pending := [.invoke 7 (bs [0x02, 0])] }.pending = .invoke 7 (bs [0x02, 0]) :: [] ∧
      decode (bs [0x02, 0]) = .ok (.parse []) ∧ (Instr.parse []).wellFormed = true := ⟨rfl, rfl, rfl⟩
theorem witness_StepReportsInvalidFrame :
    { st [] with pending := [.invoke 3 short8] }.pending = .invoke 3 short8 :: [] ∧
      short8.take 2 = [0x40, 0x40] ∧ (short8.length < 31 ∨ (readLE16 short8 2).toNat ≠ short8.length) :=
  ⟨rfl, rfl, .inl (by decide)⟩
theorem witness_StepReportsInvalidFrame_mismatch :
    (frame0 0x20 [0x10, 0x03, 0xD3, 0x00, 0x0D, 0x0A]).take 2 = [0x40, 0x40] ∧
      (readLE16 (frame0 0x20 [0x10, 0x03, 0xD3, 0x00, 0x0D, 0x0A]) 2).toNat ≠
        (frame0 0x20 [0x10, 0x03, 0xD3, 0x00, 0x0D, 0x0A]).length := ⟨rfl, by decide +kernel⟩
theorem witness_StepClosesConnection :
    { st [0x40] with pending := [.close 3] }.mem.wf ∧
      { st [0x40] with pending := [.close 3] }.pending = .close 3 :: [] := ⟨st_wf [0x40], rfl⟩
theorem witness_StepWithoutEventsIdles : (st [0x40]).pending = [] := rfl

theorem witness_Crc16_in_range : 1 + 3 ≤ (bs [1, 2, 3, 4]).length ∧ 4 + 0 ≤ (bs [1, 2, 3, 4]).length := by decide
theorem witness_Crc16OutOfRangeRefused :
    (bs [1, 2, 3, 4]).length < 4 + 1 ∧ (bs [1, 2, 3, 4]).length < 5 + 0 := by decide
theorem witness_Crc16OffsetSelects : 4 ≤ (bs [1, 2, 3, 4]).length := by decide

theorem witness_FeedConservesBytes : (st [0x40, 0x40]).mem.wf := st_wf _
/-- One buffer for each step of FEED. -/
theorem witness_FeedFollowsTheFiveSteps :
    (bs [0x40, 0x40, 0x00]).length < 4 ∧
      (4 ≤ (bs [0xAA, 0xBB, 0xCC, 0x40]).length ∧ NoMarker (bs [0xAA, 0xBB, 0xCC, 0x40])) ∧
      (4 ≤ (bs [0xAA, 0xBB, 0x40, 0x40]).length ∧ MarkerAt (bs [0xAA, 0xBB, 0x40, 0x40]) 2 ∧
        ∀ j, j < 2 → ¬ MarkerAt (bs [0xAA, 0xBB, 0x40, 0x40]) j) ∧
      (MarkerAt (bs [0x40, 0x40, 0x07, 0x00]) 0 ∧
        (readLE16 (bs [0x40, 0x40, 0x07, 0x00]) 2).toNat < frontEndBounds.lenMin) ∧
      (MarkerAt (bs [0x40, 0x40, 0x01, 0x08]) 0 ∧
        frontEndBounds.lenMax < (readLE16 (bs [0x40, 0x40, 0x01, 0x08]) 2).toNat) ∧
      (MarkerAt (bs [0x40, 0x40, 0x00, 0x08]) 0 ∧ (readLE16 (bs [0x40, 0x40, 0x00, 0x08]) 2).toNat = 2048 ∧
        (bs [0x40, 0x40, 0x00, 0x08]).length < 2048) ∧
      (MarkerAt short8 0 ∧ (readLE16 short8 2).toNat = 8 ∧ 8 ≤ short8.length) :=
  ⟨by decide, ⟨by decide, findMarker_eq_none (by decide)⟩,
    ⟨by decide, ⟨rfl, rfl⟩, (findMarker_eq_some (S := bs [0xAA, 0xBB, 0x40, 0x40]) (k := 2) (by decide)).2⟩,
    ⟨⟨rfl, rfl⟩, by decide +kernel⟩, ⟨⟨rfl, rfl⟩, by decide +kernel⟩,
    ⟨⟨rfl, rfl⟩, by decide +kernel, by decide⟩, ⟨rfl, rfl⟩, by decide +kernel, by decide⟩
theorem witness_FeedPassesAreBounded : frontEndBounds.Valid ∧ (bs [1, 2]).length + 1 ≤ 3 := by decide
/-- Each kind of item occurs. -/
theorem witness_FeedItemsAreWellShaped :
    Item.frame short8 ∈ (feed frontEndBounds [] short8).1 ∧
      Item.discard .PREFIX (bs [0xAA]) ∈ (feed frontEndBounds [] (bs [0xAA, 0x40, 0x40, 0x08])).1 ∧
      Item.discard .NOMARKER (bs [0xAA, 0xBB, 0xCC]) ∈ (feed frontEndBounds [] (bs [0xAA, 0xBB, 0xCC, 0xDD])).1 ∧
      Item.discard .SPURIOUS (bs [0x40, 0x40]) ∈ (feed frontEndBounds [] (bs [0x40, 0x40, 0x07, 0x00])).1 := by
  decide +kernel
theorem witness_FeedOfNothingIsNoOperation :
    (st [0x40, 0x40, 0x00, 0x08, 0x11]).Inv :=
  ⟨st_wf _, fun p hp => by
    obtain rfl : p = (3, bs [0x40, 0x40, 0x00, 0x08, 0x11]) := by simpa [st, State.reset] using hp
    exact .inr ⟨by decide, ⟨rfl, rfl⟩, by decide +kernel, by decide +kernel, by decide +kernel⟩⟩
theorem witness_FeedWaitsForPartialFrame :
    (st []).mem.wf ∧ 4 ≤ ((st []).buf ++ bs [0x40, 0x40, 0x00, 0x08]).length ∧
      MarkerAt ((st []).buf ++ bs [0x40, 0x40, 0x00, 0x08]) 0 ∧
      8 ≤ (readLE16 ((st []).buf ++ bs [0x40, 0x40, 0x00, 0x08]) 2).toNat ∧
      (readLE16 ((st []).buf ++ bs [0x40, 0x40, 0x00, 0x08]) 2).toNat ≤ 2048 ∧
      ((st []).buf ++ bs [0x40, 0x40, 0x00, 0x08]).length <
        (readLE16 ((st []).buf ++ bs [0x40, 0x40, 0x00, 0x08]) 2).toNat :=
  ⟨st_wf _, by decide, ⟨rfl, rfl⟩, by decide +kernel, by decide +kernel, by decide +kernel⟩
theorem witness_FeedFramesIgnoreChunking :
    frontEndBounds.Valid ∧ ResidueShape frontEndBounds (bs [0x40, 0x40, 0x08, 0x00, 0x01]) :=
  ⟨by decide, .inr ⟨by decide, ⟨rfl, rfl⟩, by decide +kernel, by decide +kernel, by decide +kernel⟩⟩
theorem witness_FeedRecoversValidFrames :
    (∀ F, F ∈ [short8, hb] → ValidFrame frontEndBounds F) ∧
      [short8 ++ hb.take 1, hb.drop 1].flatten = [short8, hb].flatten :=
  ⟨fun F hF => by
    rcases List.mem_cons.mp hF with rfl | hF
    · exact validFrame_short8
    · rcases List.mem_cons.mp hF with rfl | hF
      · exact validFrame_hb
      · simp at hF, by decide⟩
theorem witness_FeedResyncsAfterGarbage :
    bs [0x55, 0x40, 0x41] ≠ [] ∧ NoMarker (bs [0x55, 0x40, 0x41]) ∧
      (bs [0x55, 0x40, 0x41]).getLast? ≠ some 0x40 ∧ ValidFrame frontEndBounds hb :=
  ⟨by decide, findMarker_eq_none (by decide), by decide, validFrame_hb⟩
theorem witness_FeedLosesFrameAfterMarkByte :
    NoMarker (bs [0x55]) ∧ (bs [0x55]).getLast? ≠ some 0x40 ∧ ValidFrame frontEndBounds hb ∧
      8 ≤ (byteAt hb 2).toNat ∧ NoMarker (0x40 :: hb.drop 2) :=
  ⟨findMarker_eq_none (by decide), by decide, validFrame_hb, by decide, findMarker_eq_none (by decide)⟩
theorem witness_FeedCommandsRunInOrder :
    (st [0x40]).mem.wf ∧
      { st [0x40] with pending := [.invoke 3 (encode (.feed (bs [1]))), .invoke 3 (encode (.feed (bs [2]))),
        .close 3] }.pending =
        [bs [1], bs [2]].map (fun ch => HostEvent.invoke 3 (encode (.feed ch))) ++ [.close 3] :=
  ⟨st_wf _, rfl⟩
theorem witness_FeedsOnTwoInstancesCommute : (st [0x40]).mem.wf ∧ (3 : Nat) ≠ 4 := ⟨st_wf _, by decide⟩

theorem witness_ParseRejectsShortInput :
    (hb.take 30).length < 31 ∧ hb.length = 31 ∧ (readLE16 hb 2).toNat = 31 := by decide +kernel
theorem witness_ParseRejectsLengthMismatch :
    hb[2]? = some 0x1F ∧ hb[3]? = some 0x00 ∧
      (0x1F : Byte).toNat + 256 * (0x00 : Byte).toNat ≠ (hb ++ [0]).length := by decide +kernel
theorem witness_Parse_accepted : 31 ≤ hb.length ∧ (readLE16 hb 2).toNat = hb.length := by decide +kernel
theorem witness_ParseDeviceIdStopsAtNul : ∃ f, parse hb = .frame f :=
  ⟨frameOf hb, parse_eq_frame_iff.mpr ⟨by decide, by decide +kernel, rfl⟩⟩
/-- HEARTBEAT against HEARTBEAT with footer `00 00`. -/
theorem witness_ParseIgnoresMarkerAndFooter :
    hb.length = (frame0 0x1F [0x10, 0x03, 0xD3, 0x00, 0, 0]).length ∧
      (hb.drop 2).take (hb.length - 4) =
        ((frame0 0x1F [0x10, 0x03, 0xD3, 0x00, 0, 0]).drop 2).take
          ((frame0 0x1F [0x10, 0x03, 0xD3, 0x00, 0, 0]).length - 4) ∧
      parse hb = .frame (frameOf hb) ∧ hb.take 2 = (frame0 0x1F [0x10, 0x03, 0xD3, 0x00, 0, 0]).take 2 := by
  decide +kernel

theorem witness_BuildLaysOutTheFrame :
    id0.length = 20 ∧ ((none : Option Bytes).getD []).length ≤ 65504 ∧
      ((some (List.replicate 65504 (0 : Byte))).getD []).length ≤ 65504 := by
  refine ⟨by decide, by decide, ?_⟩
  rw [Option.getD_some, List.length_replicate]
theorem witness_BuildRefusesBadOperands :
    (bs [1]).length ≠ 20 ∧ id0.length = 20 ∧
      65504 < ((some (List.replicate 65505 (0 : Byte))).getD []).length := by
  refine ⟨by decide, by decide, ?_⟩
  rw [Option.getD_some, List.length_replicate]; omega
/-- Both operands bad: the id is the one named (log 16). -/
theorem witness_BuildRefusesBadOperands_both :
    (bs [1]).length ≠ 20 ∧ 65504 < ((some (List.replicate 65505 (0 : Byte))).getD []).length ∧
      exec (.build 0 (bs [1]) 0 (some (List.replicate 65505 0))) (st []) = .refused (.buildId 1) := by
  refine ⟨by decide, ?_, rfl⟩
  rw [Option.getD_some, List.length_replicate]; omega
theorem witness_ParseRecoversBuiltFrame : id0.length = 20 ∧ (bs [1, 2]).length ≤ 65504 := by decide

theorem witness_Dispatch_login :
    (rec0 0x1001 [1, 2, 3, 4, 5, 6, 7, 8]).deviceIdRaw.length = 20 ∧
      (rec0 0x1001 [1, 2, 3, 4, 5, 6, 7, 8]).messageType = 0x1001 ∧
      8 ≤ (rec0 0x1001 [1, 2, 3, 4, 5, 6, 7, 8]).content.length ∧
      (rec0 0x1001 [1, 2, 3, 4, 5, 6, 7]).content.length < 8 := by decide
theorem witness_DispatchAnswersHeartbeats :
    (rec0 0x1003 []).messageType = 0x1003 ∧ (rec0 0x6001 [1]).messageType = 0x6001 ∧
      (rec0 0x6001 [1]).version = (rec0 0x1003 []).version ∧
      (rec0 0x6001 [1]).deviceIdRaw = (rec0 0x1003 []).deviceIdRaw ∧
      (rec0 0x1003 []).deviceIdRaw.length = 20 := by decide
theorem witness_DispatchAnswersAlarm :
    (rec0 0x4007 [1, 2, 3, 4]).messageType = 0x4007 ∧ 4 ≤ (rec0 0x4007 [1, 2, 3, 4]).content.length ∧
      (rec0 0x4007 [1, 2, 3, 4]).deviceIdRaw.length = 20 ∧ (rec0 0x4007 [1, 2, 3]).content.length < 4 := by decide
theorem witness_DispatchNoReplyTypes :
    ([0x1002, 0x4001, 0x4002, 0x3400, 0x9001, 0x9003, 0xC007, 0x0000].all fun t : U16 =>
      decide ((rec0 t []).messageType ≠ 0x1001 ∧ (rec0 t []).messageType ≠ 0x1003 ∧
        (rec0 t []).messageType ≠ 0x6001 ∧ (rec0 t []).messageType ≠ 0x4007)) = true := by decide
theorem witness_DispatchIgnoresChecksumFlag :
    (rec0 0x1003 []).version = { rec0 0x1003 [] with checksumValid := false, raw := [1] }.version ∧
      (rec0 0x1003 []).deviceIdRaw = { rec0 0x1003 [] with checksumValid := false, raw := [1] }.deviceIdRaw ∧
      (rec0 0x1003 []).messageType = { rec0 0x1003 [] with checksumValid := false, raw := [1] }.messageType ∧
      (rec0 0x1003 []).content = { rec0 0x1003 [] with checksumValid := false, raw := [1] }.content :=
  ⟨rfl, rfl, rfl, rfl⟩

theorem witness_RxIsFeedThenParseThenDispatch : (st [0x40, 0x40]).mem.wf := st_wf _
theorem witness_RxAnswersLoginEndToEnd :
    (st []).mem.wf ∧ (st []).buf = [] ∧ 8 ≤ (bs [1, 2, 3, 4, 5, 6, 7, 8]).length ∧
      (bs [1, 2, 3, 4, 5, 6, 7, 8]).length ≤ 2017 ∧
      build 0x04 id0 0x1001 (bs [1, 2, 3, 4, 5, 6, 7, 8]) =
        .ok (composed 0x04 id0 0x1001 (bs [1, 2, 3, 4, 5, 6, 7, 8])) :=
  ⟨st_wf _, rfl, by decide, by decide, build_eq_ok_iff.mpr ⟨by decide, by decide, rfl⟩⟩
theorem witness_FrameRowIsRxOfItsBytes :
    (Instr.login (wire0 [1] 0)).isFrameRow = true ∧ (Instr.login (wire0 [1] 0)).wellFormed = true ∧
      (encode (.login (wire0 [1] 0))).length ≤ 2048 ∧ (st []).mem.wf ∧ (st []).buf = [] :=
  ⟨rfl, by decide, by decide, st_wf _, rfl⟩

theorem witness_frame_rows :
    (wire0 [1, 2, 3, 4, 5, 6, 7, 8] 0).wellFormed = true ∧ (wire0 [1, 2, 3] 0).wellFormed = true ∧
      (wire0 [] 0).wellFormed = true := by decide
/-- A LOGIN on either side of 8 content bytes. -/
theorem witness_LoginFrameIsAnswered :
    (wire0 [1, 2, 3, 4, 5, 6, 7, 8] 0).wellFormed = true ∧ 8 ≤ (wire0 [1, 2, 3, 4, 5, 6, 7, 8] 0).content.length ∧
      (wire0 [1, 2, 3, 4, 5, 6, 7] 0).wellFormed = true ∧ (wire0 [1, 2, 3, 4, 5, 6, 7] 0).content.length = 7 := by
  decide
/-- An ALARM on either side of 4 content bytes. -/
theorem witness_AlarmFrameIsAnswered :
    (wire0 [1, 2, 3, 4] 0).wellFormed = true ∧ (wire0 [1, 2, 3, 4] 0).content.length = 4 ∧
      (wire0 [1, 2, 3] 0).wellFormed = true ∧ (wire0 [1, 2, 3] 0).content.length < 4 := by decide
theorem witness_ChecksumDoesNotChangeTheReply :
    (wire0 [1] 0).wellFormed = true ∧ (wire0 [1] 5).version = (wire0 [1] 0).version ∧
      (wire0 [1] 5).deviceIdRaw = (wire0 [1] 0).deviceIdRaw ∧ (wire0 [1] 5).content = (wire0 [1] 0).content := by
  decide

theorem witness_exec_completes :
    (∃ t, exec (.parse []) (st [0x40]) = .next t) ∧ (∀ chunk, Instr.parse [] ≠ .feed chunk) ∧
      (∀ chunk nows, Instr.parse [] ≠ .rx chunk nows) ∧ ∃ t, exec (.feed []) (st [0x40]) = .next t :=
  ⟨⟨_, rfl⟩, by simp, by simp, _, rfl⟩
theorem witness_StepKeepsResidueShapes :
    { st [0x40, 0x40, 0x00, 0x08, 0x11] with pending := [.close 9] }.Inv ∧
      ∃ t, step { st [0x40, 0x40, 0x00, 0x08, 0x11] with pending := [.close 9] } = .next t :=
  ⟨witness_FeedOfNothingIsNoOperation, _, rfl⟩
theorem witness_StepRunsEveryOperation :
    (Instr.crc16 (bs [1, 2]) 0 2).isFrameRow = false ∧
      { st [0x40] with pending := [.invoke 7 (encode (.crc16 (bs [1, 2]) 0 2)), .close 3] }.pending =
        .invoke 7 (encode (.crc16 (bs [1, 2]) 0 2)) :: [.close 3] := ⟨rfl, rfl⟩

end Sys2Proof.Tests
end

section
/-! The reassembler behind garbage (41_reassembler.md R113, R116, R123): where markers stand in a concatenation, what one
pass does with a known first marker and with a valid frame in front, and the resynchronisation statement. -/

namespace Sys2Proof.Machine

/-- A marker that lies wholly inside the front part. -/
theorem markerAt_append_left {A B : Bytes} {k : Nat} (h : k + 1 < A.length) :
    MarkerAt (A ++ B) k ↔ MarkerAt A k := by
  simp [MarkerAt, List.getElem?_append_left h, List.getElem?_append_left (show k < A.length by omega)]

@[simp] theorem markerAt_length_append {A B : Bytes} : MarkerAt (A ++ B) A.length ↔ MarkerAt B 0 := by
  simp [MarkerAt, List.getElem?_append_right]

/-- Garbage that meets R123's condition cannot make a marker with what follows it: either both bytes lie in the garbage,
or the first is its last byte, which is no `40`. -/
theorem NoMarker.not_markerAt_append {g : Bytes} (hg : NoMarker g) (hlast : g.getLast? ≠ some 0x40) (F : Bytes)
    {j : Nat} (hj : j < g.length) : ¬ MarkerAt (g ++ F) j := by
  by_cases hin : j + 1 < g.length
  · exact fun hm => hg j ((markerAt_append_left hin).mp hm)
  · rintro ⟨hfirst, -⟩
    rw [List.getElem?_append_left hj] at hfirst
    rw [List.getLast?_eq_getElem?, show g.length - 1 = j by omega] at hlast
    exact hlast hfirst

/-- A pass on a buffer whose first marker stands behind `k > 0` bytes discards those bytes as a PREFIX (R113). -/
theorem pass_of_first_marker {b : Bounds} {buf : Bytes} {k : Nat} (hlen : 4 ≤ buf.length) (hk : 0 < k)
    (hm : MarkerAt buf k) (hfirst : ∀ j < k, ¬ MarkerAt buf j) :
    pass b buf = .again (.discard .PREFIX (buf.take k)) (buf.drop k) := by
  have hm0 := hfirst 0 hk
  obtain ⟨hshort, -⟩ | ⟨-, h0, -⟩ | ⟨-, hnone, -⟩ | ⟨-, k', -, hm', hfirst', hp⟩ | ⟨-, h0, -⟩ | ⟨-, h0, -⟩ :=
    pass_cases b buf
  · omega
  · exact absurd h0 hm0
  · exact absurd hm (hnone k)
  · obtain rfl : k' = k := by
      rcases Nat.lt_trichotomy k' k with hlt | heq | hgt
      · exact absurd hm' (hfirst k' hlt)
      · exact heq
      · exact absurd hm (hfirst' k hgt)
    exact hp
  · exact absurd h0 hm0
  · exact absurd h0 hm0

/-- A pass on a buffer that begins with a valid frame takes exactly that frame off (R116). -/
theorem pass_validFrame_append {b : Bounds} {F : Bytes} (hF : ValidFrame b F) (rest : Bytes) :
    pass b (F ++ rest) = .again (.frame F) rest := by
  obtain ⟨h4, hm, hL, hmin, hmax⟩ := hF
  have hm0 : MarkerAt (F ++ rest) 0 := (markerAt_append_left (by omega)).mpr hm
  have hL' : (readLE16 (F ++ rest) 2).toNat = F.length := by rw [readLE16_append_left (by omega), hL]
  have hlen : (F ++ rest).length = F.length + rest.length := List.length_append
  obtain ⟨hshort, -⟩ | ⟨-, -, -, -, hpartial, -⟩ | ⟨-, hnone, -⟩ | ⟨-, k, hk, -, hfirst, -⟩ | ⟨-, -, hout, -⟩ |
    ⟨-, -, -, -, -, hp⟩ := pass_cases b (F ++ rest)
  · omega
  · omega
  · exact absurd hm0 (hnone 0)
  · exact absurd hm0 (hfirst 0 hk)
  · omega
  · simpa [hL'] using hp

/-- The loop has nothing to take from an empty buffer (R111). -/
@[simp] theorem extract_nil (b : Bounds) (n : Nat) : extract b n [] = ([], []) := by
  cases n with
  | zero => rfl
  | succ n => exact extract_stop rfl

/-- With a pass to spare, the loop gives a valid frame back and leaves nothing. -/
theorem extract_validFrame {b : Bounds} {F : Bytes} (hF : ValidFrame b F) (n : Nat) :
    extract b (n + 1) F = ([.frame F], []) := by
  have hp : pass b F = .again (.frame F) [] := by simpa using pass_validFrame_append hF []
  simp [extract_again hp]

/-- Garbage under R123's condition, then a valid frame: one PREFIX discard of exactly the garbage, then the frame. -/
theorem feed_garbage_validFrame {b : Bounds} {g F : Bytes} (hne : g ≠ []) (hg : NoMarker g)
    (hlast : g.getLast? ≠ some 0x40) (hF : ValidFrame b F) :
    feed b [] (g ++ F) = ([.discard .PREFIX g, .frame F], []) := by
  have hpos : 0 < g.length := List.length_pos_iff.mpr hne
  have hlen : (g ++ F).length = (g.length - 1 + F.length) + 1 := by rw [List.length_append]; omega
  have hp : pass b (g ++ F) = .again (.discard .PREFIX g) F := by
    have h4 : 4 ≤ (g ++ F).length := by have := hF.1; rw [List.length_append]; omega
    simpa using pass_of_first_marker (b := b) h4 hpos (markerAt_length_append.mpr hF.2.1)
      fun j hj => hg.not_markerAt_append hlast F hj
  rw [feed, List.nil_append, extract_again hp, hlen, extract_validFrame hF]

/-- The loss R123 warns of, on R236's pattern: a single `40` before a frame of 8 bytes pairs with the frame's first `40`,
the length read is 0x0840, and the frame's bytes go into a spurious header and a run without marker. -/
theorem feed_markByte_loses_frame :
    feed frontEndBounds [] ([0x40] ++ [0x40, 0x40, 0x08, 0x00, 0xAA, 0xBB, 0xCC, 0xDD]) =
      ([.discard .SPURIOUS [0x40, 0x40], .discard .NOMARKER [0x40, 0x08, 0x00, 0xAA, 0xBB, 0xCC]], [0xDD]) := by
  decide

/-- Settles O23: two passes extract the garbage and the frame; the condition is needed by the run of
`feed_markByte_loses_frame`. -/
theorem feedResyncsAfterGarbage : Obligations.FeedResyncsAfterGarbage := by
  unfold Obligations.FeedResyncsAfterGarbage
  refine ⟨fun b g F _ hne hg hlast hF => feed_garbage_validFrame hne hg hlast hF,
    [0x40], [0x40, 0x40, 0x08, 0x00, 0xAA, 0xBB, 0xCC, 0xDD], ?_, ?_⟩
  · exact ⟨by decide, ⟨rfl, rfl⟩, by decide, by decide, by decide⟩
  · rw [feed_markByte_loses_frame]
    decide

end Sys2Proof.Machine
end

section
/-! The operation PARSE (42_parser.md): what `exec` answers on either side of its two structural tests, and the fields of
the Frame record in the bytes presented. -/

namespace Sys2Proof.Machine

/-- PARSE reports one result and touches nothing else (R140). -/
theorem exec_parse (F : Bytes) (s : State) :
    exec (.parse F) s = .next { s with returned := s.returned ++ [(s.conn, .parse (parse F))] } := rfl

/-- PARSE of a byte sequence that fails one of the two tests (R141, R142). -/
theorem exec_parse_of_rejected {F : Bytes} (h : F.length < 31 ∨ (readLE16 F 2).toNat ≠ F.length) (s : State) :
    exec (.parse F) s = .next { s with returned := s.returned ++ [(s.conn, .parse .invalid)] } := by
  rw [exec_parse, parse_eq_invalid_iff.mpr h]

/-- PARSE of a byte sequence that passes both tests (R141, R142). -/
theorem exec_parse_of_accepted {F : Bytes} (hlen : 31 ≤ F.length) (hdecl : (readLE16 F 2).toNat = F.length)
    (s : State) :
    exec (.parse F) s = .next { s with returned := s.returned ++ [(s.conn, .parse (.frame (frameOf F)))] } := by
  rw [exec_parse, parse_eq_frame_iff.mpr ⟨hlen, hdecl, rfl⟩]

/-- The content of a Frame record begins at offset 27 and lacks 31 bytes of the frame's length (R148). -/
theorem frameOf_content_eq_take_drop (F : Bytes) :
    (frameOf F).content = (F.drop 27).take (F.length - 31) := by
  rw [frameOf_content, slice, Nat.sub_sub]

theorem length_frameOf_content (F : Bytes) : (frameOf F).content.length = F.length - 31 := by
  rw [frameOf_content, length_slice]
  omega

/-- Settles O29: the record is `frameOf F`, and from 31 bytes on every offset it reads lies inside `F`. -/
theorem parseYieldsTheFields : Obligations.ParseYieldsTheFields := by
  unfold Obligations.ParseYieldsTheFields
  intro F s hlen hdecl
  have hframe : parse F = .frame (frameOf F) := parse_eq_frame_iff.mpr ⟨hlen, hdecl, rfl⟩
  have htype : (frameOf F).messageType.toNat = (byteAt F 25).toNat * 256 + (byteAt F 26).toNat := by
    rw [frameOf_messageType, readBE16_toNat, Nat.mul_comm]
  exact ⟨frameOf F, byteAt F 25, byteAt F 26, exec_parse_of_accepted hlen hdecl s,
    getElem?_of_lt (by omega), rfl, length_deviceIdRaw_of_parse hframe,
    getElem?_of_lt (by omega), getElem?_of_lt (by omega), htype,
    frameOf_content_eq_take_drop F, length_frameOf_content F, frameOf_raw F⟩

/-- Settles O27: below 31 bytes the length test fails; at 31 declared bytes both tests pass and 31 - 31 bytes of content
are left. -/
theorem parseRejectsShortInput : Obligations.ParseRejectsShortInput := by
  unfold Obligations.ParseRejectsShortInput
  refine ⟨fun F s hshort => exec_parse_of_rejected (.inl hshort) s, fun F s hlen hdecl => ⟨frameOf F, ?_, ?_⟩⟩
  · rw [← List.length_eq_zero_iff, length_frameOf_content, hlen]
  · exact exec_parse_of_accepted (by omega) (by omega) s

end Sys2Proof.Machine
end

section
/-! The operation BUILD (43_encoder.md): the two bytes of a 16-bit field by value, what `exec` answers on admitted
operands, the parts of a composed frame, and its round trip through PARSE. -/

namespace Sys2Proof.Machine

/-- The low byte of a 16-bit value (R10). -/
theorem extract_low_eq_ofNat (v : U16) : v.extractLsb' 0 8 = BitVec.ofNat 8 v.toNat := rfl

/-- The high byte of a 16-bit value (R10). -/
theorem extract_high_eq_ofNat (v : U16) : v.extractLsb' 8 8 = BitVec.ofNat 8 (v.toNat / 256) := by
  rw [BitVec.extractLsb', Nat.shiftRight_eq_div_pow]

theorem le16_eq_ofNat (v : U16) : le16 v = [BitVec.ofNat 8 v.toNat, BitVec.ofNat 8 (v.toNat / 256)] := by
  rw [le16, extract_low_eq_ofNat, extract_high_eq_ofNat]

theorem be16_eq_ofNat (v : U16) : be16 v = [BitVec.ofNat 8 (v.toNat / 256), BitVec.ofNat 8 v.toNat] := by
  rw [be16, extract_low_eq_ofNat, extract_high_eq_ofNat]

/-- "Absent means `N = 0`" (R160, R70). -/
theorem contentOrEmpty_eq_getD (content : Option Bytes) : contentOrEmpty content = content.getD [] := by
  cases content <;> rfl

/-- BUILD on operands R162 admits reports the composed frame and touches nothing else (R160). -/
theorem exec_build_of_admitted {v : Byte} {id : Bytes} {t : U16} {content : Option Bytes} (hid : id.length = 20)
    (hc : (content.getD []).length ≤ 65504) (s : State) :
    exec (.build v id t content) s =
      .next { s with returned := s.returned ++ [(s.conn, .bytes (composed v id t (content.getD [])))] } := by
  have hbuild : build v id t (contentOrEmpty content) = .ok (composed v id t (content.getD [])) := by
    rw [contentOrEmpty_eq_getD]
    exact build_eq_ok_iff.mpr ⟨hid, hc, rfl⟩
  change execBuild v id t content s = _
  rw [execBuild, hbuild]
  rfl

section composed
variable {v : Byte} {id : Bytes} {t : U16} {c : Bytes}

/-- The bytes before the checksum, each by value; the length field holds `31 + N` unreduced, as R162 sees to (R161). -/
theorem frameBody_eq_ofNat (hc : c.length ≤ 65504) :
    frameBody v id t c =
      [0x40, 0x40, BitVec.ofNat 8 (31 + c.length), BitVec.ofNat 8 ((31 + c.length) / 256), v] ++ id ++
        [BitVec.ofNat 8 (t.toNat / 256), BitVec.ofNat 8 t.toNat] ++ c := by
  have hlen : (BitVec.ofNat 16 (31 + c.length)).toNat = 31 + c.length := by
    rw [BitVec.toNat_ofNat, Nat.mod_eq_of_lt (by omega)]
  simp [frameBody, le16_eq_ofNat, be16_eq_ofNat, markByte, overhead, hlen]

/-- A composed frame is its body, then the body's CRC low byte first, then the footer (R160, R161). -/
theorem composed_eq_ofNat :
    composed v id t c = frameBody v id t c ++
      [BitVec.ofNat 8 (crcRange (frameBody v id t c) 0 (27 + c.length)).toNat,
        BitVec.ofNat 8 ((crcRange (frameBody v id t c) 0 (27 + c.length)).toNat / 256), 0x0D, 0x0A] := by
  rw [composed, le16_eq_ofNat, List.append_assoc]
  rfl

/-- The checksum of a composed frame is the CRC of the frame's own first `27 + N` bytes (R163). -/
theorem crc16_composed (hid : id.length = 20) :
    crc16 (composed v id t c) 0 (27 + c.length) = some (crcRange (frameBody v id t c) 0 (27 + c.length)) := by
  have hbody : (frameBody v id t c).length = 27 + c.length := by simp [hid]
  refine crc16_eq_some_iff.mpr ⟨by rw [length_composed]; omega, ?_⟩
  rw [composed, List.append_assoc, ← hbody, crcRange_append_left]

/-- PARSE takes a composed frame apart into the operands it was composed from (R164). -/
theorem parse_composed (hid : id.length = 20) (hc : c.length ≤ 65504) :
    parse (composed v id t c) =
      .frame
        { version := v
          deviceIdRaw := id
          deviceId := deviceIdOf id
          messageType := t
          content := c
          raw := composed v id t c
          checksumValid := true } := by
  rw [composed, parse_frameBody hid hc, contentOff, decide_eq_true rfl]

/-- A frame begins with `MARKER` (R161). -/
theorem take_two_composed : (composed v id t c).take 2 = [0x40, 0x40] := rfl

/-- A frame ends with `FOOTER`, behind its body and the two bytes of its checksum (R161). -/
theorem drop_composed (hid : id.length = 20) : (composed v id t c).drop (29 + c.length) = [0x0D, 0x0A] :=
  List.drop_left' (by simp [hid]; omega)

end composed

/-- Settles O35: the frame is `composed v id t c`, and `parse_composed` gives its record. -/
theorem parseRecoversBuiltFrame : Obligations.ParseRecoversBuiltFrame := by
  unfold Obligations.ParseRecoversBuiltFrame
  intro v id t c s s' hid hc
  have hlen : (composed v id t c).length = 31 + c.length := by rw [length_composed, hid]
  have hparse := exec_parse (composed v id t c) s'
  rw [parse_composed hid hc] at hparse
  exact ⟨composed v id t c, _, exec_build_of_admitted (content := some c) hid hc s, hparse, rfl, rfl, rfl, rfl, rfl,
    hlen, take_two_composed, drop_composed hid⟩

/-- Settles O33: the composed frame is its body, whose bytes `frameBody_eq_ofNat` lists, then the CRC of that body
and the footer. -/
theorem buildLaysOutTheFrame : Obligations.BuildLaysOutTheFrame := by
  unfold Obligations.BuildLaysOutTheFrame
  intro v id t content s hid hc
  refine ⟨composed v id t (content.getD []), _, exec_build_of_admitted hid hc s, crc16_composed hid, ?_⟩
  rw [composed_eq_ofNat, frameBody_eq_ofNat hc]

end Sys2Proof.Machine
end

section
/-! The operation DISPATCH (44_dispatcher.md): what `exec` reports, the rule that answers each message type, when there
is a reply, and the clock a LOGIN reply carries. -/

namespace Sys2Proof.Machine

/-- DISPATCH reports the dispatcher's answer and touches nothing else (R175). -/
theorem exec_dispatch_of_ok {f : Frame} {now : U32} {r : Option Bytes} (h : dispatch f now = .ok r) (s : State) :
    exec (.dispatch (.frame f) now) s = .next { s with returned := s.returned ++ [(s.conn, .reply r)] } := by
  change execDispatch (.frame f) now s = _
  rw [execDispatch, h]
  rfl

section rules
variable {f : Frame}

theorem dispatch_of_login (h : f.messageType = typeLogin) (now : U32) : dispatch f now = replyLogin f now :=
  if_pos h

theorem dispatch_of_heartbeat (h : f.messageType = typeHeartbeat) (now : U32) :
    dispatch f now = replyHeartbeat f now := by
  rw [dispatch, h]
  rfl

theorem dispatch_of_heartbeatLegacy (h : f.messageType = typeHeartbeatLegacy) (now : U32) :
    dispatch f now = replyHeartbeatLegacy f now := by
  rw [dispatch, h]
  rfl

theorem dispatch_of_alarm (h : f.messageType = typeAlarm) (now : U32) : dispatch f now = replyAlarm f now := by
  rw [dispatch, h]
  rfl

/-- Behind the four answered types every branch of the lookup is "no reply" (R183 to R186). -/
theorem dispatch_of_unanswered (hlogin : f.messageType ≠ typeLogin) (hheartbeat : f.messageType ≠ typeHeartbeat)
    (hlegacy : f.messageType ≠ typeHeartbeatLegacy) (halarm : f.messageType ≠ typeAlarm) (now : U32) :
    dispatch f now = .ok none := by
  rw [dispatch, if_neg hlogin, if_neg hheartbeat, if_neg hlegacy, if_neg halarm]
  split_ifs <;> rfl

end rules

/-- What BUILD composed for a reply is always a reply. -/
theorem isSome_of_replyTo {f : Frame} {t : U16} {c : Bytes} {r : Option Bytes} (h : replyTo f t c = .ok r) :
    r.isSome = true := by
  obtain ⟨-, -, rfl⟩ := replyTo_eq_ok_iff.mp h
  rfl

/-- The ALARM rule answers from 4 content bytes on (R182). -/
theorem replyAlarm_isSome_iff {f : Frame} {now : U32} {r : Option Bytes} (h : replyAlarm f now = .ok r) :
    r.isSome = true ↔ 4 ≤ f.content.length := by
  by_cases hc : 4 ≤ f.content.length
  · rw [replyAlarm, if_pos hc] at h
    exact iff_of_true (isSome_of_replyTo h) hc
  · rw [replyAlarm_none (by omega), Except.ok.injEq] at h
    exact iff_of_false (by simp [← h]) hc

/-- DISPATCH gives a reply exactly for LOGIN, both heartbeats, and ALARM with 4 content bytes or more (R175, Q10). -/
theorem dispatch_isSome_iff {f : Frame} {now : U32} {r : Option Bytes} (h : dispatch f now = .ok r) :
    r.isSome = true ↔ f.messageType = 0x1001 ∨ f.messageType = 0x1003 ∨ f.messageType = 0x6001 ∨
      (f.messageType = 0x4007 ∧ 4 ≤ f.content.length) := by
  by_cases hlogin : f.messageType = 0x1001
  · rw [dispatch_of_login hlogin] at h
    exact iff_of_true (isSome_of_replyTo h) (.inl hlogin)
  by_cases hheartbeat : f.messageType = 0x1003
  · rw [dispatch_of_heartbeat hheartbeat] at h
    exact iff_of_true (isSome_of_replyTo h) (.inr (.inl hheartbeat))
  by_cases hlegacy : f.messageType = 0x6001
  · rw [dispatch_of_heartbeatLegacy hlegacy] at h
    exact iff_of_true (isSome_of_replyTo h) (.inr (.inr (.inl hlegacy)))
  by_cases halarm : f.messageType = 0x4007
  · rw [dispatch_of_alarm halarm] at h
    simpa [hlogin, hheartbeat, hlegacy, halarm] using replyAlarm_isSome_iff h
  · rw [dispatch_of_unanswered hlogin hheartbeat hlegacy halarm, Except.ok.injEq] at h
    refine iff_of_false (by simp [← h]) ?_
    rintro (ht | ht | ht | ⟨ht, -⟩)
    exacts [hlogin ht, hheartbeat ht, hlegacy ht, halarm ht]

/-- Settles O36: the answer is `dispatch f now`, in which no state occurs. -/
theorem dispatchAnswersWithoutMemory : Obligations.DispatchAnswersWithoutMemory := by
  unfold Obligations.DispatchAnswersWithoutMemory
  intro f now hid
  obtain ⟨r, hr⟩ := dispatch_ok hid now
  exact ⟨r, exec_dispatch_of_ok hr, dispatch_isSome_iff hr⟩

/-- Settles O41: a type other than the four answered ones meets only "no reply" rules in the lookup. -/
theorem dispatchNoReplyTypes : Obligations.DispatchNoReplyTypes := by
  unfold Obligations.DispatchNoReplyTypes
  intro f now s hlogin hheartbeat hlegacy halarm
  exact exec_dispatch_of_ok (dispatch_of_unanswered hlogin hheartbeat hlegacy halarm now) s

/-- A byte of a slice is the byte that far behind the slice's start (R9). -/
theorem byteAt_slice {S : Bytes} {a b i : Nat} (h : i < b - a) : byteAt (slice S a b) i = byteAt S (a + i) := by
  simp [byteAt, slice, List.getD, List.getElem?_take_of_lt h]

theorem readLE32_append_right (A B : Bytes) (i : Nat) : readLE32 (A ++ B) (A.length + i) = readLE32 B i := by
  simp only [readLE32, Nat.add_assoc, byteAt_append_right]

/-- A 32-bit field that lies inside a slice is read from the sequence the slice was cut from (R9, R10). -/
theorem readLE32_slice {S : Bytes} {a b i : Nat} (h : i + 3 < b - a) :
    readLE32 (slice S a b) i = readLE32 S (a + i) := by
  rw [readLE32, readLE32, byteAt_slice h, byteAt_slice (show i + 2 < b - a by omega),
    byteAt_slice (show i + 1 < b - a by omega), byteAt_slice (show i < b - a by omega)]
  rfl

/-- From 8 content bytes on, a LOGIN reply carries the device's clock, and `NOW` does not occur in it (R177). -/
theorem loginTimestamp_of_clock {c : Bytes} (hc : 8 ≤ c.length) (now : U32) : loginTimestamp c now = slice c 4 8 :=
  if_pos hc

/-- The timestamp field of a LOGIN reply stands behind the 6 bytes of `loginAccepted` (R177). -/
theorem readLE32_loginReply_clock (c : Bytes) : readLE32 (loginAccepted ++ slice c 4 8) 6 = readLE32 c 4 :=
  (readLE32_append_right loginAccepted (slice c 4 8) 0).trans (readLE32_slice (by decide))

/-- Settles O38: the reply's timestamp is cut from the request's content, whatever `NOW` is, and PARSE gives it back. -/
theorem dispatchEchoesLoginClock : Obligations.DispatchEchoesLoginClock := by
  unfold Obligations.DispatchEchoesLoginClock
  intro f s hid htype hc
  have hlen : (loginAccepted ++ slice f.content 4 8).length ≤ 65504 := by simp [loginAccepted]; omega
  refine ⟨_, _, parse_composed (v := f.version) (t := typeLoginReply) hid hlen,
    readLE32_loginReply_clock f.content, fun now => exec_dispatch_of_ok ?_ s⟩
  rw [dispatch_of_login htype, replyLogin_ok hid, loginTimestamp_of_clock hc]

end Sys2Proof.Machine
end

section
/-! The decoder against the encoder (30_encoding.md R60, R61, R67; log 3): for each reader of an operand, exactly which
bytes it reads as what; the row of a message type; a wire frame as the concatenation of its fields. -/

namespace Sys2Proof

open Sys2Proof.Machine

theorem andThen_eq_ok_iff {α β : Type} {x : Reading α} {f : α → Bytes → Reading β} {y : β × Bytes} :
    andThen x f = .ok y ↔ ∃ v r, x = .ok (v, r) ∧ f v r = .ok y :=
  ⟨andThen_eq_ok, fun ⟨v, r, hx, hf⟩ => by rw [hx, andThen_ok, hf]⟩

theorem takeByte_eq_ok_iff {S r : Bytes} {b : Byte} : takeByte S = .ok (b, r) ↔ S = b :: r := by
  cases S <;> simp [takeByte]

theorem takeBytes_eq_ok_iff {n : Nat} {S v r : Bytes} :
    takeBytes n S = .ok (v, r) ↔ v.length = n ∧ S = v ++ r := by
  refine ⟨fun h => ?_, fun ⟨hv, hS⟩ => by rw [hS, ← hv, takeBytes_append]⟩
  unfold takeBytes at h
  split at h
  · next hn => cases h; exact ⟨List.length_take_of_le hn, (List.take_append_drop n S).symm⟩
  · cases h

theorem takeBE16_eq_ok_iff {S r : Bytes} {v : U16} : takeBE16 S = .ok (v, r) ↔ S = be16 v ++ r := by
  refine ⟨fun h => ?_, fun h => h ▸ takeBE16_be16 v r⟩
  obtain ⟨x, r', hx, he⟩ := andThen_eq_ok h
  obtain ⟨hlen, rfl⟩ := takeBytes_eq_ok_iff.mp hx
  obtain ⟨a, b, rfl⟩ := List.length_eq_two.mp hlen
  cases he
  rw [be16_readBE16]

theorem takeLE32_eq_ok_iff {S r : Bytes} {v : U32} : takeLE32 S = .ok (v, r) ↔ S = le32 v ++ r := by
  refine ⟨fun h => ?_, fun h => h ▸ takeLE32_le32 v r⟩
  obtain ⟨x, r', hx, he⟩ := andThen_eq_ok h
  obtain ⟨hlen, rfl⟩ := takeBytes_eq_ok_iff.mp hx
  obtain ⟨a, b, c, d, rfl⟩ := List.length_eq_four.mp hlen
  cases he
  rw [le32_readLE32]

theorem takeSeq_eq_ok_iff {S v r : Bytes} : takeSeq S = .ok (v, r) ↔ S = putSeq v ++ r := by
  refine ⟨fun h => ?_, fun h => h ▸ takeSeq_putSeq v r⟩
  obtain ⟨n, r', hn, hv⟩ := andThen_eq_ok h
  obtain ⟨rfl, rfl⟩ := takeBytes_eq_ok_iff.mp hv
  rw [takeCount_eq_ok_iff.mp hn, putSeq, List.append_assoc]

theorem takeId_eq_ok_iff {S v r : Bytes} : takeId S = .ok (v, r) ↔ S = putId v ++ r := by
  refine ⟨fun h => ?_, fun h => h ▸ takeId_putId v r⟩
  obtain ⟨n, r', hn, hv⟩ := andThen_eq_ok h
  obtain ⟨hlen, rfl⟩ := takeBytes_eq_ok_iff.mp hv
  rw [takeCount_eq_ok_iff.mp hn, putId, hlen, idCount_idCount, List.append_assoc]

theorem takeForm_eq_ok_iff {S r : Bytes} {x : Bool} : takeForm S = .ok (x, r) ↔ S = putForm x ++ r := by
  refine ⟨fun h => ?_, fun h => h ▸ takeForm_putForm x r⟩
  obtain ⟨b, r', hb, hx⟩ := andThen_eq_ok h
  obtain rfl := takeByte_eq_ok_iff.mp hb
  split_ifs at hx with h0 h1
  · cases hx; rw [h0]; rfl
  · cases hx; rw [h1]; rfl

theorem takeWords_eq_ok_iff {n : Nat} {S r : Bytes} {vs : List U32} :
    takeWords n S = .ok (vs, r) ↔ vs.length = n ∧ S = putWords vs ++ r := by
  refine ⟨fun h => ?_, fun ⟨hn, hS⟩ => by rw [hS, ← hn, takeWords_putWords]⟩
  induction n generalizing S vs with
  | zero => cases h; exact ⟨rfl, rfl⟩
  | succ n ih =>
    obtain ⟨v, r', hv, h⟩ := andThen_eq_ok h
    obtain ⟨vs', r'', hvs, h⟩ := andThen_eq_ok h
    cases h
    obtain ⟨hlen, rfl⟩ := ih hvs
    rw [takeLE32_eq_ok_iff.mp hv, putWords, List.length_cons, hlen, List.append_assoc]
    exact ⟨rfl, rfl⟩

theorem takeFrame_eq_ok_iff {S r : Bytes} {f : Frame} : takeFrame S = .ok (f, r) ↔ S = putFrame f ++ r := by
  refine ⟨fun h => ?_, fun h => h ▸ takeFrame_putFrame f r⟩
  simp only [takeFrame, andThen_eq_ok_iff, takeByte_eq_ok_iff, takeId_eq_ok_iff, takeSeq_eq_ok_iff,
    takeBE16_eq_ok_iff, takeForm_eq_ok_iff] at h
  obtain ⟨v, _, rfl, id, _, rfl, d, _, rfl, t, _, rfl, c, _, rfl, raw, _, rfl, x, _, rfl, h⟩ := h
  cases h
  simp [putFrame]

theorem takeContent_eq_ok_iff {S r : Bytes} {c : Option Bytes} :
    takeContent S = .ok (c, r) ↔ S = putContent c ++ r := by
  refine ⟨fun h => ?_, fun h => ?_⟩
  · obtain ⟨given, r', hgiven, hrest⟩ := andThen_eq_ok h
    obtain rfl := takeForm_eq_ok_iff.mp hgiven
    cases given with
    | false => cases hrest; rfl
    | true =>
      rw [if_pos rfl] at hrest
      obtain ⟨x, r'', hx, heq⟩ := andThen_eq_ok hrest
      cases heq
      rw [takeSeq_eq_ok_iff.mp hx, putContent, List.append_assoc]
  · cases c <;> simp [h, takeContent, putContent]

theorem takeParsed_eq_ok_iff {S r : Bytes} {f : ParseResult} :
    takeParsed S = .ok (f, r) ↔ S = putParsed f ++ r := by
  refine ⟨fun h => ?_, fun h => ?_⟩
  · obtain ⟨invalid, r', hinvalid, hrest⟩ := andThen_eq_ok h
    obtain rfl := takeForm_eq_ok_iff.mp hinvalid
    cases invalid with
    | true => cases hrest; rfl
    | false =>
      rw [if_neg Bool.false_ne_true] at hrest
      obtain ⟨x, r'', hx, heq⟩ := andThen_eq_ok hrest
      cases heq
      rw [takeFrame_eq_ok_iff.mp hx, putParsed, List.append_assoc]
  · cases f <;> simp [h, takeParsed, putParsed]

/-! The six operations: which operand bytes are read as which instruction. -/

theorem takeCrc16_eq_ok_iff {S r : Bytes} {i : Instr} :
    takeCrc16 S = .ok (i, r) ↔
      ∃ bytes o l, i = .crc16 bytes o l ∧ S = putCount o ++ putCount l ++ putSeq bytes ++ r := by
  simp only [takeCrc16, andThen_eq_ok_iff, takeCount_eq_ok_iff, takeSeq_eq_ok_iff, Except.ok.injEq, Prod.mk.injEq]
  constructor
  · rintro ⟨o, _, rfl, l, _, rfl, bytes, _, rfl, rfl, rfl⟩
    exact ⟨bytes, o, l, rfl, by simp⟩
  · rintro ⟨bytes, o, l, rfl, rfl⟩
    exact ⟨o, _, by simp, l, _, rfl, bytes, r, rfl, rfl, rfl⟩

theorem takeFeed_eq_ok_iff {S r : Bytes} {i : Instr} :
    takeFeed S = .ok (i, r) ↔ ∃ chunk, i = .feed chunk ∧ S = putSeq chunk ++ r := by
  simp only [takeFeed, andThen_eq_ok_iff, takeSeq_eq_ok_iff, Except.ok.injEq, Prod.mk.injEq]
  constructor
  · rintro ⟨chunk, _, rfl, rfl, rfl⟩
    exact ⟨chunk, rfl, rfl⟩
  · rintro ⟨chunk, rfl, rfl⟩
    exact ⟨chunk, r, rfl, rfl, rfl⟩

theorem takeParse_eq_ok_iff {S r : Bytes} {i : Instr} :
    takeParse S = .ok (i, r) ↔ ∃ F, i = .parse F ∧ S = putSeq F ++ r := by
  simp only [takeParse, andThen_eq_ok_iff, takeSeq_eq_ok_iff, Except.ok.injEq, Prod.mk.injEq]
  constructor
  · rintro ⟨F, _, rfl, rfl, rfl⟩
    exact ⟨F, rfl, rfl⟩
  · rintro ⟨F, rfl, rfl⟩
    exact ⟨F, r, rfl, rfl, rfl⟩

theorem takeBuild_eq_ok_iff {S r : Bytes} {i : Instr} :
    takeBuild S = .ok (i, r) ↔
      ∃ v id t c, i = .build v id t c ∧ S = [v] ++ be16 t ++ putId id ++ putContent c ++ r := by
  simp only [takeBuild, andThen_eq_ok_iff, takeByte_eq_ok_iff, takeBE16_eq_ok_iff, takeId_eq_ok_iff,
    takeContent_eq_ok_iff, Except.ok.injEq, Prod.mk.injEq]
  constructor
  · rintro ⟨v, _, rfl, t, _, rfl, id, _, rfl, c, _, rfl, rfl, rfl⟩
    exact ⟨v, id, t, c, rfl, by simp⟩
  · rintro ⟨v, id, t, c, rfl, rfl⟩
    exact ⟨v, _, by simp, t, _, rfl, id, _, rfl, c, r, rfl, rfl, rfl⟩

theorem takeDispatch_eq_ok_iff {S r : Bytes} {i : Instr} :
    takeDispatch S = .ok (i, r) ↔ ∃ f now, i = .dispatch f now ∧ S = putParsed f ++ le32 now ++ r := by
  simp only [takeDispatch, andThen_eq_ok_iff, takeParsed_eq_ok_iff, takeLE32_eq_ok_iff, Except.ok.injEq,
    Prod.mk.injEq]
  constructor
  · rintro ⟨f, _, rfl, now, _, rfl, rfl, rfl⟩
    exact ⟨f, now, rfl, by simp⟩
  · rintro ⟨f, now, rfl, rfl⟩
    exact ⟨f, _, by simp, now, r, rfl, rfl, rfl⟩

theorem takeRx_eq_ok_iff {S r : Bytes} {i : Instr} :
    takeRx S = .ok (i, r) ↔
      ∃ chunk nows, i = .rx chunk nows ∧ S = putSeq chunk ++ putCount nows.length ++ putWords nows ++ r := by
  simp only [takeRx, andThen_eq_ok_iff, takeSeq_eq_ok_iff, takeCount_eq_ok_iff, takeWords_eq_ok_iff,
    Except.ok.injEq, Prod.mk.injEq]
  constructor
  · rintro ⟨chunk, _, rfl, n, _, rfl, nows, _, ⟨rfl, rfl⟩, rfl, rfl⟩
    exact ⟨chunk, nows, rfl, by simp⟩
  · rintro ⟨chunk, nows, rfl, rfl⟩
    exact ⟨chunk, _, by simp, _, _, rfl, nows, r, ⟨rfl, rfl⟩, rfl, rfl⟩

/-- A command that opens with a selector is read as an operation (R67; no selector is the marker byte). -/
theorem decode_selector {b : Byte} (hb : b ≠ markByte) (r : Bytes) :
    decode (b :: r) = whole (takeOperation b r) :=
  if_neg hb

/-- Every operation is read back from its command, its operands of any length (R68). -/
theorem decode_encode_operation {i : Instr} (hi : i.isFrameRow = false) : decode (encode i) = .ok i := by
  cases i with
  | crc16 bytes o l =>
    exact (decode_selector (by decide) _).trans
      (whole_eq_ok_iff.mpr (takeCrc16_eq_ok_iff.mpr ⟨bytes, o, l, rfl, by simp⟩))
  | feed chunk =>
    exact (decode_selector (by decide) _).trans
      (whole_eq_ok_iff.mpr (takeFeed_eq_ok_iff.mpr ⟨chunk, rfl, by simp⟩))
  | parse F =>
    exact (decode_selector (by decide) _).trans
      (whole_eq_ok_iff.mpr (takeParse_eq_ok_iff.mpr ⟨F, rfl, by simp⟩))
  | build v id t c =>
    exact (decode_selector (by decide) _).trans
      (whole_eq_ok_iff.mpr (takeBuild_eq_ok_iff.mpr ⟨v, id, t, c, rfl, (List.append_nil _).symm⟩))
  | dispatch f now =>
    exact (decode_selector (by decide) _).trans
      (whole_eq_ok_iff.mpr (takeDispatch_eq_ok_iff.mpr ⟨f, now, rfl, by simp⟩))
  | rx chunk nows =>
    exact (decode_selector (by decide) _).trans
      (whole_eq_ok_iff.mpr (takeRx_eq_ok_iff.mpr ⟨chunk, nows, rfl, by simp⟩))
  | _ => cases hi

/-- What is read as an operation is an operation, and its bytes are the ones read (R67). -/
theorem takeOperation_eq_ok {b : Byte} {r : Bytes} {i : Instr} (h : takeOperation b r = .ok (i, [])) :
    i.isFrameRow = false ∧ encode i = b :: r := by
  unfold takeOperation at h
  split_ifs at h with h0 h1 h2 h3 h4 h5
  · obtain ⟨bytes, o, l, rfl, rfl⟩ := takeCrc16_eq_ok_iff.mp h
    exact ⟨rfl, by simp [encode, h0]⟩
  · obtain ⟨chunk, rfl, rfl⟩ := takeFeed_eq_ok_iff.mp h
    exact ⟨rfl, by simp [encode, h1]⟩
  · obtain ⟨F, rfl, rfl⟩ := takeParse_eq_ok_iff.mp h
    exact ⟨rfl, by simp [encode, h2]⟩
  · obtain ⟨v, id, t, c, rfl, rfl⟩ := takeBuild_eq_ok_iff.mp h
    exact ⟨rfl, by simp [encode, h3]⟩
  · obtain ⟨f, now, rfl, rfl⟩ := takeDispatch_eq_ok_iff.mp h
    exact ⟨rfl, by simp [encode, h4]⟩
  · obtain ⟨chunk, nows, rfl, rfl⟩ := takeRx_eq_ok_iff.mp h
    exact ⟨rfl, by simp [encode, h5]⟩

/-- No operation is shut out by well-formedness (R68). -/
theorem wellFormed_of_operation {i : Instr} (hi : i.isFrameRow = false) : i.wellFormed = true := by
  cases i with
  | crc16 | feed | parse | build | dispatch | rx => rfl
  | _ => cases hi

/-! The frame rows: the row of a type, its bytes and its well-formedness (R60, R63). -/

theorem wellFormed_iff {w : WireFrame} :
    w.wellFormed = true ↔ w.deviceIdRaw.length = 20 ∧ w.content.length ≤ 65504 := decide_eq_true_iff

@[simp] theorem encode_rowOfType (t : U16) (w : WireFrame) : encode (rowOfType t w) = frameBytes t w := by
  unfold rowOfType
  split_ifs <;> subst_vars <;> rfl

/-- The row of a type is a frame row, `other` only for a type without a row of its own. -/
theorem rowOfType_wellFormed {t : U16} {w : WireFrame} (hw : w.wellFormed = true) :
    (rowOfType t w).wellFormed = true := by
  unfold rowOfType
  split_ifs with h1 h2 h3 h4 h5 h6 h7 h8 h9 h10
  case neg => simp [Instr.wellFormed, namedTypes, hw, h1, h2, h3, h4, h5, h6, h7, h8, h9, h10]
  all_goals exact hw

/-- Every well-formed frame row is the row of its type. -/
theorem exists_rowOfType {i : Instr} (hrow : i.isFrameRow = true) (hi : i.wellFormed = true) :
    ∃ t w, WireFrame.wellFormed w = true ∧ i = rowOfType t w := by
  cases i with
  | login w => exact ⟨typeLogin, w, hi, rfl⟩
  | logout w => exact ⟨typeLogout, w, hi, rfl⟩
  | heartbeat w => exact ⟨typeHeartbeat, w, hi, rfl⟩
  | gps w => exact ⟨typeGps, w, hi, rfl⟩
  | pid w => exact ⟨typePid, w, hi, rfl⟩
  | alarm w => exact ⟨typeAlarm, w, hi, rfl⟩
  | heartbeatLegacy w => exact ⟨typeHeartbeatLegacy, w, hi, rfl⟩
  | loginReply w => exact ⟨typeLoginReply, w, hi, rfl⟩
  | heartbeatReply w => exact ⟨typeHeartbeatReply, w, hi, rfl⟩
  | alarmReply w => exact ⟨typeAlarmReply, w, hi, rfl⟩
  | other t w =>
    obtain ⟨ht, hw⟩ : namedTypes.contains t = false ∧ w.wellFormed = true := by
      simpa only [Instr.wellFormed, Bool.and_eq_true, Bool.not_eq_true'] using hi
    exact ⟨t, w, hw, (rowOfType_other ht).symm⟩
  | _ => cases hrow

/-- What the frame decoder accepts, and as what (R60, R61). -/
theorem decodeFrame_eq_ok_iff {F : Bytes} {i : Instr} :
    decodeFrame F = .ok i ↔ (byteAt F 0 = markByte ∧ byteAt F 1 = markByte) ∧ 31 ≤ F.length ∧
      (readLE16 F 2).toNat = F.length ∧ i = rowOfType (readBE16 F 25) (wireOf F) := by
  unfold decodeFrame overhead
  split_ifs with hm hlen hdecl
  · simp only [false_iff]; tauto
  · simp only [false_iff]; omega
  · simp only [false_iff]; tauto
  · rw [Except.ok.injEq]
    exact ⟨fun h => ⟨by tauto, by omega, not_not.mp hdecl, h.symm⟩, fun h => h.2.2.2.symm⟩

/-- The free fields of a laid out frame are the ones it was laid out with (R61). -/
theorem wireOf_frameBytes {t : U16} {w : WireFrame} (hid : w.deviceIdRaw.length = 20) :
    wireOf (frameBytes t w) = w := by
  have hb : (frameBody w.version w.deviceIdRaw t w.content).length = 27 + w.content.length := by simp [hid]
  have hlen : (frameBytes t w).length = 31 + w.content.length := by rw [length_frameBytes, hid]
  have hk := readLE16_append_right (frameBody w.version w.deviceIdRaw t w.content)
    (le16 w.checksum ++ [w.footer0, w.footer1]) 0
  have hf0 := byteAt_append_right (frameBody w.version w.deviceIdRaw t w.content)
    (le16 w.checksum ++ [w.footer0, w.footer1]) 2
  have hf1 := byteAt_append_right (frameBody w.version w.deviceIdRaw t w.content)
    (le16 w.checksum ++ [w.footer0, w.footer1]) 3
  rw [readLE16_le16, Nat.add_zero] at hk
  unfold wireOf
  rw [hlen, show 31 + w.content.length - 4 = 27 + w.content.length by omega,
    show 31 + w.content.length - 2 = 27 + w.content.length + 2 by omega,
    show 31 + w.content.length - 1 = 27 + w.content.length + 3 by omega, ← hb, frameBytes, List.append_assoc,
    hk, hf0, hf1, hb, slice_frameBody_id hid, contentOff, slice_frameBody_content hid, byteAt_frameBody_version]
  rfl

/-- A wire frame is read as the row of its type with its own fields (R61, R63). -/
theorem decode_frameBytes {t : U16} {w : WireFrame} (hw : w.wellFormed = true) :
    decode (frameBytes t w) = .ok (rowOfType t w) := by
  obtain ⟨hid, hc⟩ := wellFormed_iff.mp hw
  have hlen : (frameBytes t w).length = 31 + w.content.length := by rw [length_frameBytes, hid]
  have hdecl : (readLE16 (frameBytes t w) 2).toNat = 31 + w.content.length := by
    rw [frameBytes, List.append_assoc, readLE16_frameBody, BitVec.toNat_ofNat, Nat.mod_eq_of_lt (by omega)]
  have htype : readBE16 (frameBytes t w) 25 = t := by
    rw [frameBytes, List.append_assoc, readBE16_frameBody hid]
  change decodeFrame (frameBytes t w) = _
  exact decodeFrame_eq_ok_iff.mpr
    ⟨⟨rfl, rfl⟩, by omega, by omega, by rw [htype, wireOf_frameBytes hid]⟩

/-- Settles O1: a frame row by `decode_frameBytes`, an operation by the readers' laws. -/
theorem decodeInvertsEncode : Obligations.DecodeInvertsEncode := by
  unfold Obligations.DecodeInvertsEncode
  intro i hi
  cases hrow : i.isFrameRow with
  | false => exact decode_encode_operation hrow
  | true =>
    obtain ⟨t, w, hw, rfl⟩ := exists_rowOfType hrow hi
    rw [encode_rowOfType, decode_frameBytes hw]

/-! A byte sequence cut at fixed offsets. -/

/-- The bytes from offset `a` on are a slice and the bytes behind it (R9). -/
theorem drop_eq_slice_append (F : Bytes) {a b : Nat} (h : a ≤ b) : F.drop a = slice F a b ++ F.drop b := by
  rw [slice, show F.drop b = (F.drop a).drop (b - a) by rw [List.drop_drop, Nat.add_sub_cancel' h],
    List.take_append_drop]

/-- The byte at an offset, and the bytes behind it (R9). -/
theorem drop_eq_byteAt_cons {F : Bytes} {a : Nat} (h : a < F.length) : F.drop a = byteAt F a :: F.drop (a + 1) := by
  rw [List.drop_eq_getElem_cons h]
  simp [byteAt, List.getD, h]

/-- Two bytes read as a u16, low byte first, and the bytes behind them (R10). -/
theorem drop_eq_le16_append {F : Bytes} {a : Nat} (h : a + 1 < F.length) :
    F.drop a = le16 (readLE16 F a) ++ F.drop (a + 2) := by
  have hle : le16 (readLE16 F a) = [byteAt F a, byteAt F (a + 1)] := le16_readLE16 _ _ []
  rw [hle, drop_eq_byteAt_cons (by omega), drop_eq_byteAt_cons h]
  rfl

/-- Two bytes read as a u16, high byte first, and the bytes behind them (R10). -/
theorem drop_eq_be16_append {F : Bytes} {a : Nat} (h : a + 1 < F.length) :
    F.drop a = be16 (readBE16 F a) ++ F.drop (a + 2) := by
  have hbe : be16 (readBE16 F a) = [byteAt F a, byteAt F (a + 1)] := be16_readBE16 _ _ []
  rw [hbe, drop_eq_byteAt_cons (by omega), drop_eq_byteAt_cons h]
  rfl

/-- A byte sequence that declares its own length fits R60's limits: id of 20 bytes, content of at most 65504. -/
theorem wireOf_wellFormed {F : Bytes} (hlen : 31 ≤ F.length) (hdecl : (readLE16 F 2).toNat = F.length) :
    (wireOf F).wellFormed = true := by
  have hmax := (readLE16 F 2).isLt
  refine wellFormed_iff.mpr ⟨?_, ?_⟩ <;> simp only [wireOf, length_slice, contentOff] <;> omega

/-- A frame that carries the marker and declares its own length is its fields laid out by R60. -/
theorem frameBytes_wireOf {F : Bytes} (h0 : byteAt F 0 = markByte) (h1 : byteAt F 1 = markByte)
    (hlen : 31 ≤ F.length) (hdecl : (readLE16 F 2).toNat = F.length) :
    frameBytes (readBE16 F 25) (wireOf F) = F := by
  have hcontent : overhead + (slice F contentOff (F.length - 4)).length = F.length := by
    simp [overhead, contentOff]; omega
  have hdeclared : BitVec.ofNat 16 (overhead + (slice F contentOff (F.length - 4)).length) = readLE16 F 2 := by
    rw [hcontent, ← hdecl, BitVec.ofNat_toNat, BitVec.setWidth_eq]
  have hfooter : F.drop (F.length - 4 + 2) = [byteAt F (F.length - 2), byteAt F (F.length - 1)] := by
    rw [show F.length - 4 + 2 = F.length - 2 by omega, drop_eq_byteAt_cons (by omega),
      show F.length - 2 + 1 = F.length - 1 by omega, drop_eq_byteAt_cons (by omega), List.drop_of_length_le (by omega)]
  have hcut : F = byteAt F 0 :: byteAt F 1 :: (le16 (readLE16 F 2) ++ byteAt F 4 :: (slice F 5 25 ++
      (be16 (readBE16 F 25) ++ (slice F contentOff (F.length - 4) ++ (le16 (readLE16 F (F.length - 4)) ++
        [byteAt F (F.length - 2), byteAt F (F.length - 1)]))))) := by
    rw [← hfooter, ← drop_eq_le16_append (by omega), ← drop_eq_slice_append F (by simp only [contentOff]; omega),
      contentOff, ← drop_eq_be16_append (by omega), ← drop_eq_slice_append F (by omega),
      ← drop_eq_byteAt_cons (by omega), ← drop_eq_le16_append (by omega), ← drop_eq_byteAt_cons (by omega),
      ← drop_eq_byteAt_cons (by omega)]
    rfl
  conv_rhs => rw [hcut]
  simp [frameBytes, frameBody, wireOf, h0, h1, hdeclared, -length_slice]

/-- Settles O2: a command either opens with the marker byte and is a frame (`frameBytes_wireOf`), or is an operation
(`takeOperation_eq_ok`). -/
theorem encodeInvertsDecode : Obligations.EncodeInvertsDecode := by
  unfold Obligations.EncodeInvertsDecode
  intro S i h
  cases S with
  | nil => cases h
  | cons b r =>
    by_cases hb : b = markByte
    · rw [decode, if_pos hb] at h
      obtain ⟨⟨h0, h1⟩, hlen, hdecl, rfl⟩ := decodeFrame_eq_ok_iff.mp h
      rw [encode_rowOfType, frameBytes_wireOf h0 h1 hlen hdecl]
      exact ⟨rowOfType_wellFormed (wireOf_wellFormed hlen hdecl), rfl⟩
    · rw [decode_selector hb, whole_eq_ok_iff] at h
      obtain ⟨hop, henc⟩ := takeOperation_eq_ok h
      exact ⟨wellFormed_of_operation hop, henc⟩

/-- Settles O3: each command is read by the decoder's own computation. -/
theorem knownCommandsDecode : Obligations.KnownCommandsDecode :=
  ⟨rfl, rfl, rfl, rfl⟩

end Sys2Proof
end

section
/-! FEED's loop (41_reassembler.md): every pass takes bytes off, so the passes are bounded; the five steps as equations of
the whole extraction; and the induction along the extraction, from which the shape of items and residue follow. -/

namespace Sys2Proof.Machine

theorem frontEndBounds_valid : frontEndBounds.Valid := by decide

/-- Splitting off a front part is seen in what the front part reads as. -/
theorem markerAt_take {S : Bytes} {n k : Nat} (h : k + 1 < n) : MarkerAt (S.take n) k ↔ MarkerAt S k := by
  simp [MarkerAt, List.getElem?_take_of_lt h, List.getElem?_take_of_lt (show k < n by omega)]

theorem noMarker_take {S : Bytes} {n : Nat} (h : ∀ j, j + 1 < n → ¬ MarkerAt S j) : NoMarker (S.take n) := by
  intro j hj
  have hlt : j + 1 < n := lt_of_lt_of_le hj.lt (by simp)
  exact h j hlt ((markerAt_take hlt).mp hj)

@[simp] theorem markerAt_drop {S : Bytes} {n k : Nat} : MarkerAt (S.drop n) k ↔ MarkerAt S (n + k) := by
  simp [MarkerAt, Nat.add_assoc]

/-- A marker in front is the two bytes `40 40` (R113). -/
theorem take_two_of_markerAt {S : Bytes} (h : MarkerAt S 0) : S.take 2 = [0x40, 0x40] := by
  obtain ⟨h0, h1⟩ := h
  rw [List.take_add_one, List.take_add_one, List.take_zero, h0, h1]
  rfl

/-- A pass that goes on takes a non-empty front off (R119); with `lenMin = 0` a frame could have no bytes. -/
theorem length_of_pass_again {b : Bounds} (hb : b.Valid) {buf rest : Bytes} {item : Item}
    (h : pass b buf = .again item rest) : rest.length < buf.length := by
  obtain ⟨hmin, -, -⟩ := hb
  obtain ⟨-, hp⟩ | ⟨-, -, -, -, -, hp⟩ | ⟨-, -, hp⟩ | ⟨h4, k, hk, -, -, hp⟩ | ⟨h4, -, -, hp⟩ |
    ⟨h4, -, hL, -, -, hp⟩ := pass_cases b buf <;> rw [hp] at h <;> cases h <;> rw [List.length_drop] <;> omega

/-- R119: with a pass for every byte and one more, further passes change nothing. -/
theorem extract_eq_of_le {b : Bounds} (hb : b.Valid) {n : Nat} {buf : Bytes} (h : buf.length + 1 ≤ n) :
    extract b n buf = extract b (buf.length + 1) buf := by
  induction n using Nat.strong_induction_on generalizing buf with
  | _ n ih =>
    obtain ⟨m, rfl⟩ : ∃ m, n = m + 1 := ⟨n - 1, by omega⟩
    cases hp : pass b buf with
    | stop items rest => rw [extract_stop hp, extract_stop hp]
    | again item rest =>
      have hlt := length_of_pass_again hb hp
      have hm : extract b m rest = extract b (rest.length + 1) rest := ih m (by omega) (by omega)
      have hlen : extract b buf.length rest = extract b (rest.length + 1) rest := by
        obtain heq | hne := Nat.eq_or_lt_of_le (show buf.length ≤ m by omega)
        · rw [heq, hm]
        · exact ih buf.length (by omega) (by omega)
      rw [extract_again hp, extract_again hp, hm, hlen]

/-- Settles O16, by `extract_eq_of_le`. -/
theorem feedPassesAreBounded : Obligations.FeedPassesAreBounded :=
  fun _ _ _ hb h => extract_eq_of_le hb h

/-- FEED sees the buffer and the chunk only as their concatenation (R110). -/
theorem feed_eq_feed_nil (b : Bounds) (buf chunk : Bytes) : feed b buf chunk = feed b [] (buf ++ chunk) := rfl

theorem feed_of_stop {b : Bounds} {buf rest : Bytes} {items : List Item} (h : pass b buf = .stop items rest) :
    feed b [] buf = (items, rest) :=
  extract_stop h

theorem feed_of_again {b : Bounds} (hb : b.Valid) {buf rest : Bytes} {item : Item}
    (h : pass b buf = .again item rest) :
    feed b [] buf = (item :: (feed b [] rest).1, (feed b [] rest).2) := by
  rw [show feed b [] buf = extract b (buf.length + 1) buf from rfl, extract_again h,
    extract_eq_of_le hb (length_of_pass_again hb h)]
  rfl

section steps
variable {b : Bounds} {buf : Bytes}

/-! The five steps, each as an equation of the whole extraction (R111 to R116). -/

theorem feed_of_short (h : buf.length < 4) : feed b [] buf = ([], buf) :=
  feed_of_stop (if_pos h)

theorem feed_of_noMarker (h4 : 4 ≤ buf.length) (hno : NoMarker buf) :
    feed b [] buf = ([.discard .NOMARKER (buf.take (buf.length - 1))], buf.drop (buf.length - 1)) := by
  obtain ⟨h, -⟩ | ⟨-, h, -⟩ | ⟨-, -, hp⟩ | ⟨-, k, -, h, -⟩ | ⟨-, h, -⟩ | ⟨-, h, -⟩ := pass_cases b buf
  · omega
  · exact absurd h (hno 0)
  · exact feed_of_stop hp
  · exact absurd h (hno k)
  · exact absurd h (hno 0)
  · exact absurd h (hno 0)

theorem feed_of_first_marker (hb : b.Valid) {k : Nat} (h4 : 4 ≤ buf.length) (hk : 0 < k) (hm : MarkerAt buf k)
    (hfirst : ∀ j < k, ¬ MarkerAt buf j) :
    feed b [] buf = (.discard .PREFIX (buf.take k) :: (feed b [] (buf.drop k)).1, (feed b [] (buf.drop k)).2) :=
  feed_of_again hb (pass_of_first_marker h4 hk hm hfirst)

/-- Behind a marker in front only the declared length is looked at (R114 to R116). -/
theorem pass_of_markerAt (h4 : 4 ≤ buf.length) (hm : MarkerAt buf 0) :
    pass b buf =
      if (readLE16 buf 2).toNat < b.lenMin ∨ b.lenMax < (readLE16 buf 2).toNat then
        .again (.discard .SPURIOUS [0x40, 0x40]) (buf.drop 2)
      else if buf.length < (readLE16 buf 2).toNat then .stop [] buf
      else .again (.frame (buf.take (readLE16 buf 2).toNat)) (buf.drop (readLE16 buf 2).toNat) := by
  have hfront : ¬ (byteAt buf 0 ≠ markByte ∨ byteAt buf 1 ≠ markByte) := by
    have := (markerAt_iff_byteAt (by omega)).mp hm
    tauto
  rw [pass, if_neg (show ¬ buf.length < rsmMinBytes from Nat.not_lt.mpr h4), if_neg hfront, slice_zero, slice_zero,
    take_two_of_markerAt hm]

theorem feed_of_bad_length (hb : b.Valid) (h4 : 4 ≤ buf.length) (hm : MarkerAt buf 0)
    (hL : (readLE16 buf 2).toNat < b.lenMin ∨ b.lenMax < (readLE16 buf 2).toNat) :
    feed b [] buf = (.discard .SPURIOUS [0x40, 0x40] :: (feed b [] (buf.drop 2)).1, (feed b [] (buf.drop 2)).2) :=
  feed_of_again hb ((pass_of_markerAt h4 hm).trans (if_pos hL))

theorem feed_of_partial (h4 : 4 ≤ buf.length) (hm : MarkerAt buf 0) (hmin : b.lenMin ≤ (readLE16 buf 2).toNat)
    (hmax : (readLE16 buf 2).toNat ≤ b.lenMax) (hlen : buf.length < (readLE16 buf 2).toNat) :
    feed b [] buf = ([], buf) := by
  apply feed_of_stop
  rw [pass_of_markerAt h4 hm, if_neg (by omega), if_pos hlen]

theorem feed_of_complete (hb : b.Valid) (h4 : 4 ≤ buf.length) (hm : MarkerAt buf 0)
    (hmin : b.lenMin ≤ (readLE16 buf 2).toNat) (hmax : (readLE16 buf 2).toNat ≤ b.lenMax)
    (hlen : (readLE16 buf 2).toNat ≤ buf.length) :
    feed b [] buf = (.frame (buf.take (readLE16 buf 2).toNat) :: (feed b [] (buf.drop (readLE16 buf 2).toNat)).1,
      (feed b [] (buf.drop (readLE16 buf 2).toNat)).2) := by
  apply feed_of_again hb
  rw [pass_of_markerAt h4 hm, if_neg (by omega), if_neg (by omega)]

end steps

/-- Settles O15: the equations of the steps. -/
theorem feedFollowsTheFiveSteps : Obligations.FeedFollowsTheFiveSteps := by
  unfold Obligations.FeedFollowsTheFiveSteps
  intro b buf chunk hb
  refine ⟨feed_eq_feed_nil b buf chunk, feed_of_short, feed_of_noMarker,
    fun k => feed_of_first_marker hb, feed_of_bad_length hb, ?_⟩
  rintro _ h4 hm rfl hmin hmax
  exact ⟨feed_of_partial h4 hm hmin hmax, feed_of_complete hb h4 hm hmin hmax⟩

/-- Every buffer is in one of the five cases, and a property of buffers that each step hands on holds of all. -/
theorem feed_induction {b : Bounds} (hb : b.Valid) {P : Bytes → Prop}
    (short : ∀ buf, buf.length < 4 → P buf)
    (partialFrame : ∀ buf, 4 ≤ buf.length → MarkerAt buf 0 → b.lenMin ≤ (readLE16 buf 2).toNat →
      (readLE16 buf 2).toNat ≤ b.lenMax → buf.length < (readLE16 buf 2).toNat → P buf)
    (noMarker : ∀ buf, 4 ≤ buf.length → NoMarker buf → P buf)
    (firstMarker : ∀ buf k, 4 ≤ buf.length → 0 < k → MarkerAt buf k → (∀ j < k, ¬ MarkerAt buf j) →
      P (buf.drop k) → P buf)
    (badLength : ∀ buf, 4 ≤ buf.length → MarkerAt buf 0 →
      ((readLE16 buf 2).toNat < b.lenMin ∨ b.lenMax < (readLE16 buf 2).toNat) → P (buf.drop 2) → P buf)
    (completeFrame : ∀ buf, 4 ≤ buf.length → MarkerAt buf 0 → b.lenMin ≤ (readLE16 buf 2).toNat →
      (readLE16 buf 2).toNat ≤ b.lenMax → (readLE16 buf 2).toNat ≤ buf.length →
      P (buf.drop (readLE16 buf 2).toNat) → P buf)
    (buf : Bytes) : P buf := by
  induction hn : buf.length using Nat.strong_induction_on generalizing buf with
  | _ n ih =>
    subst hn
    have hdrop : ∀ k, 0 < k → 4 ≤ buf.length → P (buf.drop k) := fun k hk h4 =>
      ih _ (by rw [List.length_drop]; omega) _ rfl
    have hmin := hb.1
    obtain ⟨h, -⟩ | ⟨h4, hm, hlo, hhi, hlen, -⟩ | ⟨h4, hno, -⟩ | ⟨h4, k, hk, hm, hfirst, -⟩ | ⟨h4, hm, hL, -⟩ |
      ⟨h4, hm, hlo, hhi, hlen, -⟩ := pass_cases b buf
    · exact short buf h
    · exact partialFrame buf h4 hm hlo hhi hlen
    · exact noMarker buf h4 hno
    · exact firstMarker buf k h4 hk hm hfirst (hdrop k hk h4)
    · exact badLength buf h4 hm hL (hdrop 2 (by omega) h4)
    · exact completeFrame buf h4 hm hlo hhi hlen (hdrop _ (by omega) h4)

/-- The declared length is read from the frame itself, once that has four bytes. -/
theorem readLE16_take {S : Bytes} {n i : Nat} (hi : i + 1 < n) (hn : n ≤ S.length) :
    readLE16 (S.take n) i = readLE16 S i := by
  rw [← readLE16_append_left (B := S.drop n) (by rw [List.length_take_of_le hn]; exact hi), List.take_append_drop]

/-- What FEED takes off as a frame is a valid one (R116). -/
theorem validFrame_take {b : Bounds} (hb : b.Valid) {buf : Bytes} (hm : MarkerAt buf 0)
    (hmin : b.lenMin ≤ (readLE16 buf 2).toNat) (hmax : (readLE16 buf 2).toNat ≤ b.lenMax)
    (hlen : (readLE16 buf 2).toNat ≤ buf.length) : ValidFrame b (buf.take (readLE16 buf 2).toNat) := by
  have h4 := hb.1
  have htake := List.length_take_of_le hlen
  exact ⟨by omega, (markerAt_take (by omega)).mpr hm, by rw [readLE16_take (by omega) hlen, htake], by omega,
    by omega⟩

/-- The bytes in front of the first marker: a run without a marker whose last byte is no `40`, or the marker would begin
one byte earlier. -/
theorem prefix_shape {buf : Bytes} {k : Nat} (hk : 0 < k) (hm : MarkerAt buf k)
    (hfirst : ∀ j < k, ¬ MarkerAt buf j) :
    buf.take k ≠ [] ∧ NoMarker (buf.take k) ∧ (buf.take k).getLast? ≠ some 0x40 := by
  have hlen : (buf.take k).length = k := List.length_take_of_le (by have := hm.lt; omega)
  refine ⟨fun hnil => ?_, noMarker_take fun j hj => hfirst j (by omega), fun hlast => ?_⟩
  · rw [hnil, List.length_nil] at hlen; omega
  · rw [List.getLast?_eq_getElem?, hlen, List.getElem?_take_of_lt (by omega)] at hlast
    exact hfirst (k - 1) (by omega) ⟨hlast, by rw [Nat.sub_add_cancel hk]; exact hm.1⟩

/-- The shape an item of FEED has by its kind (R113 to R118). -/
def ItemShape (b : Bounds) (item : Item) : Prop :=
  (∃ F, item = .frame F ∧ ValidFrame b F) ∨
  (∃ g, item = .discard .PREFIX g ∧ g ≠ [] ∧ NoMarker g ∧ g.getLast? ≠ some 0x40) ∨
  (∃ g, item = .discard .NOMARKER g ∧ 3 ≤ g.length ∧ NoMarker g) ∨
  item = .discard .SPURIOUS [0x40, 0x40]

theorem feed_items_shape {b : Bounds} (hb : b.Valid) (buf : Bytes) :
    ∀ item ∈ (feed b [] buf).1, ItemShape b item := by
  induction buf using feed_induction hb with
  | short buf h => simp [feed_of_short h]
  | partialFrame buf h4 hm hmin hmax hlen => simp [feed_of_partial h4 hm hmin hmax hlen]
  | noMarker buf h4 hno =>
    rw [feed_of_noMarker h4 hno, List.forall_mem_singleton]
    exact .inr (.inr (.inl ⟨_, rfl, by rw [List.length_take]; omega, noMarker_take fun j _ => hno j⟩))
  | firstMarker buf k h4 hk hm hfirst ih =>
    rw [feed_of_first_marker hb h4 hk hm hfirst, List.forall_mem_cons]
    exact ⟨.inr (.inl ⟨_, rfl, prefix_shape hk hm hfirst⟩), ih⟩
  | badLength buf h4 hm hL ih =>
    rw [feed_of_bad_length hb h4 hm hL, List.forall_mem_cons]
    exact ⟨.inr (.inr (.inr rfl)), ih⟩
  | completeFrame buf h4 hm hmin hmax hlen ih =>
    rw [feed_of_complete hb h4 hm hmin hmax hlen, List.forall_mem_cons]
    exact ⟨.inl ⟨_, rfl, validFrame_take hb hm hmin hmax hlen⟩, ih⟩

/-- Settles O17, by `feed_items_shape`. -/
theorem feedItemsAreWellShaped : Obligations.FeedItemsAreWellShaped :=
  fun _ buf chunk item hb hitem => feed_items_shape hb (buf ++ chunk) item hitem

theorem feed_residue_shape {b : Bounds} (hb : b.Valid) (buf : Bytes) : ResidueShape b (feed b [] buf).2 := by
  induction buf using feed_induction hb with
  | short buf h => rw [feed_of_short h]; exact .inl h
  | partialFrame buf h4 hm hmin hmax hlen =>
    rw [feed_of_partial h4 hm hmin hmax hlen]
    exact .inr ⟨h4, hm, hmin, hmax, hlen⟩
  | noMarker buf h4 hno =>
    rw [feed_of_noMarker h4 hno]
    exact .inl (by rw [List.length_drop]; omega)
  | firstMarker buf k h4 hk hm hfirst ih => rw [feed_of_first_marker hb h4 hk hm hfirst]; exact ih
  | badLength buf h4 hm hL ih => rw [feed_of_bad_length hb h4 hm hL]; exact ih
  | completeFrame buf h4 hm hmin hmax hlen ih => rw [feed_of_complete hb h4 hm hmin hmax hlen]; exact ih

/-- A residue is short, or lacks at least one byte of a frame of at most LEN_MAX (R24). -/
theorem ResidueShape.length_le {b : Bounds} {buf : Bytes} (h : ResidueShape b buf) :
    buf.length ≤ max 3 (b.lenMax - 1) := by
  obtain h | ⟨-, -, -, hmax, hlen⟩ := h <;> omega

/-- Settles O18: the residue's shape, and from it its length. -/
theorem feedLeavesResidueShape : Obligations.FeedLeavesResidueShape :=
  fun _ buf chunk hb =>
    ⟨feed_residue_shape hb (buf ++ chunk), (feed_residue_shape hb (buf ++ chunk)).length_le⟩

/-- A residue is what FEED waits with: nothing is taken from it (R24, R111, R115). -/
theorem ResidueShape.feed_eq {b : Bounds} {buf : Bytes} (h : ResidueShape b buf) : feed b [] buf = ([], buf) := by
  obtain h | ⟨h4, hm, hmin, hmax, hlen⟩ := h
  · exact feed_of_short h
  · exact feed_of_partial h4 hm hmin hmax hlen

/-- Conservation (R120): the items' bytes and the residue are the bytes that came in. -/
theorem feed_conserves {b : Bounds} (hb : b.Valid) (buf : Bytes) :
    (feed b [] buf).1.flatMap Item.bytes ++ (feed b [] buf).2 = buf := by
  induction buf using feed_induction hb with
  | short buf h => simp [feed_of_short h]
  | partialFrame buf h4 hm hmin hmax hlen => simp [feed_of_partial h4 hm hmin hmax hlen]
  | noMarker buf h4 hno => simp [feed_of_noMarker h4 hno, Item.bytes]
  | firstMarker buf k h4 hk hm hfirst ih =>
    rw [feed_of_first_marker hb h4 hk hm hfirst, List.flatMap_cons, List.append_assoc, ih]
    exact List.take_append_drop k buf
  | badLength buf h4 hm hL ih =>
    rw [feed_of_bad_length hb h4 hm hL, List.flatMap_cons, List.append_assoc, ih, ← take_two_of_markerAt hm]
    exact List.take_append_drop 2 buf
  | completeFrame buf h4 hm hmin hmax hlen ih =>
    rw [feed_of_complete hb h4 hm hmin hmax hlen, List.flatMap_cons, List.append_assoc, ih]
    exact List.take_append_drop _ buf

end Sys2Proof.Machine
end

section
/-! Streams cut into chunks (41_reassembler.md section 4, R122) and the loss behind a trailing `40` (R236). -/

namespace Sys2Proof.Machine

@[simp] theorem framesOf_discard_cons (k : DiscardKind) (g : Bytes) (items : List Item) :
    framesOf (.discard k g :: items) = framesOf items := rfl

@[simp] theorem framesOf_frame_cons (F : Bytes) (items : List Item) :
    framesOf (.frame F :: items) = F :: framesOf items := rfl

theorem exists_first_marker {S : Bytes} (h : ¬ NoMarker S) : ∃ k, MarkerAt S k ∧ ∀ j < k, ¬ MarkerAt S j := by
  cases hf : findMarker S with
  | none => exact absurd (findMarker_eq_none hf) h
  | some k => exact ⟨k, findMarker_eq_some hf⟩

/-- Without a marker no frame is taken off. -/
theorem framesOf_feed_of_noMarker {b : Bounds} {S : Bytes} (h : NoMarker S) : framesOf (feed b [] S).1 = [] := by
  by_cases h4 : 4 ≤ S.length
  · rw [feed_of_noMarker h4 h]; rfl
  · rw [feed_of_short (by omega)]; rfl

/-- The bytes in front of the first marker hold no frame. -/
theorem framesOf_feed_drop {b : Bounds} (hb : b.Valid) {S : Bytes} {k : Nat} (hm : MarkerAt S k)
    (hfirst : ∀ j < k, ¬ MarkerAt S j) : framesOf (feed b [] (S.drop k)).1 = framesOf (feed b [] S).1 := by
  obtain rfl | hk := Nat.eq_zero_or_pos k
  · rfl
  by_cases h4 : 4 ≤ S.length
  · rw [feed_of_first_marker hb h4 hk hm hfirst, framesOf_discard_cons]
  · rw [feed_of_short (show S.length < 4 by omega), feed_of_short (by rw [List.length_drop]; omega)]

/-- The frames of a stream are found behind any front part in which no marker begins. -/
theorem framesOf_feed_drop_of_not_markerAt {b : Bounds} (hb : b.Valid) {S : Bytes} {n : Nat}
    (h : ∀ j < n, ¬ MarkerAt S j) : framesOf (feed b [] (S.drop n)).1 = framesOf (feed b [] S).1 := by
  by_cases hno : NoMarker S
  · rw [framesOf_feed_of_noMarker hno, framesOf_feed_of_noMarker fun k hk => hno _ (markerAt_drop.mp hk)]
  · obtain ⟨k, hm, hfirst⟩ := exists_first_marker hno
    have hnk : n ≤ k := Nat.le_of_not_lt fun hlt => h k hlt hm
    have hcut : (S.drop n).drop (k - n) = S.drop k := by rw [List.drop_drop, Nat.add_sub_cancel' hnk]
    rw [← framesOf_feed_drop hb hm hfirst, ← hcut]
    refine (framesOf_feed_drop hb (markerAt_drop.mpr ?_) fun j hj => ?_).symm
    · rwa [Nat.add_sub_cancel' hnk]
    · exact fun hmj => hfirst (n + j) (by omega) (markerAt_drop.mp hmj)

/-- A stream may be cut anywhere: the frames of both parts together are those of the stream, when the second part is
appended to the residue of the first (R122). -/
theorem framesOf_feed_append {b : Bounds} (hb : b.Valid) (S T : Bytes) :
    framesOf (feed b [] (S ++ T)).1 =
      framesOf (feed b [] S).1 ++ framesOf (feed b [] ((feed b [] S).2 ++ T)).1 := by
  have hlen : S.length ≤ (S ++ T).length := by simp
  induction S using feed_induction hb with
  | short S h => simp [feed_of_short h]
  | partialFrame S h4 hm hmin hmax hlt => simp [feed_of_partial h4 hm hmin hmax hlt]
  | noMarker S h4 hno =>
    have hfront : ∀ j < S.length - 1, ¬ MarkerAt (S ++ T) j := fun j hj hm =>
      hno j ((markerAt_append_left (by omega)).mp hm)
    rw [feed_of_noMarker h4 hno, ← framesOf_feed_drop_of_not_markerAt hb hfront,
      List.drop_append_of_le_length (by omega)]
    rfl
  | firstMarker S k h4 hk hm hfirst ih =>
    have hk' := hm.lt
    rw [feed_of_first_marker hb h4 hk hm hfirst, feed_of_first_marker hb (k := k) (by omega) hk
      ((markerAt_append_left hk').mpr hm) (fun j hj => mt (markerAt_append_left (by omega)).mp (hfirst j hj)),
      List.drop_append_of_le_length (by omega)]
    exact ih (by simp)
  | badLength S h4 hm hL ih =>
    rw [feed_of_bad_length hb h4 hm hL, feed_of_bad_length hb (by omega)
      ((markerAt_append_left (by omega)).mpr hm) (by rwa [readLE16_append_left (by omega)]),
      List.drop_append_of_le_length (by omega)]
    exact ih (by simp)
  | completeFrame S h4 hm hmin hmax hle ih =>
    have hread : readLE16 (S ++ T) 2 = readLE16 S 2 := readLE16_append_left (by omega)
    rw [feed_of_complete hb h4 hm hmin hmax hle, feed_of_complete hb (by omega)
      ((markerAt_append_left (by omega)).mpr hm) (by rwa [hread]) (by rwa [hread]) (by rw [hread]; omega), hread,
      List.drop_append_of_le_length hle, List.take_append_of_le_length hle, framesOf_frame_cons,
      framesOf_frame_cons, List.cons_append, ih (by simp)]

/-- The frames of a run of FEEDs are those of one FEED of all chunks, from any buffer FEED would wait with. -/
theorem framesOf_feedEach {b : Bounds} (hb : b.Valid) {buf : Bytes} (hbuf : ResidueShape b buf) (chunks : List Bytes) :
    framesOf (feedEach b buf chunks).1.flatten = framesOf (feed b buf chunks.flatten).1 := by
  induction chunks generalizing buf with
  | nil =>
    rw [List.flatten_nil, feed_eq_feed_nil, List.append_nil, hbuf.feed_eq]
    rfl
  | cons chunk chunks ih =>
    rw [feedEach, List.flatten_cons, framesOf_append,
      ih (buf := (feed b buf chunk).2) (feed_residue_shape hb (buf ++ chunk)),
      List.flatten_cons, feed_eq_feed_nil b buf (chunk ++ _), ← List.append_assoc, framesOf_feed_append hb]
    rfl

/-- Settles O21, by `framesOf_feedEach`. -/
theorem feedFramesIgnoreChunking : Obligations.FeedFramesIgnoreChunking :=
  fun _ _ chunks hb hbuf => framesOf_feedEach hb hbuf chunks

/-! A stream of valid frames: what has come of a frame that is not complete yet waits, nothing else stays. -/

/-- FEED takes a valid frame in front off, and goes on behind it. -/
theorem feed_validFrame_append {b : Bounds} (hb : b.Valid) {F : Bytes} (hF : ValidFrame b F) (S : Bytes) :
    feed b [] (F ++ S) = (.frame F :: (feed b [] S).1, (feed b [] S).2) :=
  feed_of_again hb (pass_validFrame_append hF S)

/-- A proper front part of a valid frame waits (R111, R115). -/
theorem feed_of_validFrame_front {b : Bounds} {F S R T : Bytes} (hF : ValidFrame b F) (hcut : S ++ R = F ++ T)
    (hlt : S.length < F.length) : feed b [] S = ([], S) := by
  obtain ⟨h4, hm, hL, hmin, hmax⟩ := hF
  have htake : S = F.take S.length := by
    rw [← List.take_append_of_le_length (l₂ := T) (by omega), ← hcut, List.take_left']
    rfl
  by_cases hshort : S.length < 4
  · exact feed_of_short hshort
  have hread : (readLE16 S 2).toNat = F.length := by rw [htake, readLE16_take (by omega) (by omega), hL]
  have hmark : MarkerAt S 0 := by rw [htake]; exact (markerAt_take (by omega)).mpr hm
  exact feed_of_partial (by omega) hmark (by omega) (by omega) (by omega)

/-- `S` holds no whole frame of the stream `frames`: it ends inside the first one, or the stream is at its end. -/
def HoldsNoFrame (S : Bytes) (frames : List Bytes) : Prop := ∀ F ∈ frames.head?, S.length < F.length

/-- Any front part `S` of a stream of valid frames gives its whole frames and waits with the rest. -/
theorem feed_validFrames_front {b : Bounds} (hb : b.Valid) {frames : List Bytes}
    (hframes : ∀ F ∈ frames, ValidFrame b F) {S R : Bytes} (hcut : S ++ R = frames.flatten) :
    ∃ done todo, frames = done ++ todo ∧ (feed b [] S).1 = done.map Item.frame ∧
      (feed b [] S).2 ++ R = todo.flatten ∧ HoldsNoFrame (feed b [] S).2 todo := by
  induction frames generalizing S with
  | nil =>
    obtain ⟨rfl, rfl⟩ : S = [] ∧ R = [] := by simpa using hcut
    exact ⟨[], [], rfl, rfl, rfl, by simp [HoldsNoFrame]⟩
  | cons F frames ih =>
    obtain ⟨hF, hrest⟩ := List.forall_mem_cons.mp hframes
    rw [List.flatten_cons] at hcut
    by_cases hlt : S.length < F.length
    · rw [feed_of_validFrame_front hF hcut hlt]
      exact ⟨[], F :: frames, rfl, rfl, by rw [List.flatten_cons, hcut], by simpa [HoldsNoFrame] using hlt⟩
    · obtain ⟨S', rfl⟩ : F <+: S :=
        List.prefix_of_prefix_length_le ⟨_, hcut.symm⟩ (List.prefix_append S R) (by omega)
      obtain ⟨done, todo, rfl, hitems, hres, hno⟩ := ih hrest (S := S') (by simpa using hcut)
      rw [feed_validFrame_append hb hF]
      exact ⟨F :: done, todo, rfl, by rw [hitems, List.map_cons], hres, hno⟩

/-- A run of FEEDs that completes a stream of valid frames gives exactly these and leaves nothing (R122). -/
theorem feedEach_validFrames {b : Bounds} (hb : b.Valid) {frames chunks : List Bytes} {buf : Bytes}
    (hframes : ∀ F ∈ frames, ValidFrame b F) (hbuf : HoldsNoFrame buf frames)
    (hcut : buf ++ chunks.flatten = frames.flatten) :
    (feedEach b buf chunks).1.flatten = frames.map Item.frame ∧ (feedEach b buf chunks).2 = [] := by
  induction chunks generalizing buf frames with
  | nil =>
    rw [List.flatten_nil, List.append_nil] at hcut
    cases frames with
    | nil => exact ⟨rfl, hcut⟩
    | cons F frames =>
      have hlt : buf.length < F.length := hbuf F rfl
      rw [hcut, List.flatten_cons, List.length_append] at hlt
      omega
  | cons chunk chunks ih =>
    rw [List.flatten_cons, ← List.append_assoc] at hcut
    obtain ⟨done, todo, rfl, hitems, hres, hno⟩ := feed_validFrames_front hb hframes hcut
    obtain ⟨hrest, hempty⟩ := ih (fun F hF => hframes F (List.mem_append_right done hF)) hno hres
    exact ⟨by rw [feedEach, List.flatten_cons, feed_eq_feed_nil, hitems, hrest, List.map_append], hempty⟩

/-- Settles O22: the stream begins on an empty buffer, which holds no frame. -/
theorem feedRecoversValidFrames : Obligations.FeedRecoversValidFrames := by
  unfold Obligations.FeedRecoversValidFrames
  intro b frames chunks hb hframes hcut
  refine feedEach_validFrames hb hframes (fun F hF => ?_) hcut
  have h4 := (hframes F (List.mem_of_mem_head? hF)).1
  rw [List.length_nil]
  omega

/-- A `40` before a frame whose low length byte is 08 or more: the length read is `40` and that byte, at least 0x0840,
and the frame's bytes go into a spurious header and a run without marker (R236). -/
theorem feed_markByte_validFrame {X : Bytes} (hX : ValidFrame frontEndBounds X) (hlo : 8 ≤ (byteAt X 2).toNat)
    (hno : NoMarker (0x40 :: X.drop 2)) :
    feed frontEndBounds [] (0x40 :: X) =
      ([.discard .SPURIOUS [0x40, 0x40], .discard .NOMARKER ((0x40 :: X.drop 2).take (X.length - 2))],
        X.drop (X.length - 1)) := by
  obtain ⟨-, hm, -, hmin, -⟩ := hX
  have h8 : 8 ≤ X.length := hmin
  have hdrop : X.drop 1 = 0x40 :: X.drop 2 := by
    rw [drop_eq_byteAt_cons (by omega), byteAt_of_getElem? hm.2]
  have hread : (readLE16 (0x40 :: X) 2).toNat = 0x40 + 256 * (byteAt X 2).toNat := by
    rw [readLE16_toNat, show byteAt (0x40 :: X) 2 = byteAt X 1 from rfl, byteAt_of_getElem? hm.2]
    rfl
  have hlen : (0x40 :: X.drop 2).length = X.length - 1 := by simp; omega
  rw [feed_of_bad_length frontEndBounds_valid (by simp; omega) ⟨rfl, hm.1⟩
    (.inr (by rw [hread]; change 2048 < _; omega)), show (0x40 :: X).drop 2 = X.drop 1 from rfl, hdrop,
    feed_of_noMarker (by omega) hno, hlen, Nat.sub_sub, ← hdrop, List.drop_drop,
    show 1 + (X.length - (1 + 1)) = X.length - 1 by omega]

/-- Settles O24: the garbage, if there is any, goes first as a PREFIX; then `feed_markByte_validFrame`. -/
theorem feedLosesFrameAfterMarkByte : Obligations.FeedLosesFrameAfterMarkByte := by
  unfold Obligations.FeedLosesFrameAfterMarkByte
  intro g X hg hlast hX hlo hno
  rw [List.append_assoc, List.singleton_append]
  by_cases hnil : g = []
  · rw [hnil, List.nil_append, if_pos rfl, List.nil_append, feed_markByte_validFrame hX hlo hno]
  · have hpos : 0 < g.length := List.length_pos_iff.mpr hnil
    have h4 := hX.1
    rw [if_neg hnil, feed_of_first_marker frontEndBounds_valid (k := g.length)
      (by rw [List.length_append, List.length_cons]; omega) hpos (markerAt_length_append.mpr ⟨rfl, hX.2.1.1⟩)
      (fun j hj => hg.not_markerAt_append hlast _ hj), List.take_left, List.drop_left,
      feed_markByte_validFrame hX hlo hno]
    rfl

end Sys2Proof.Machine
end

section
/-! The forms of CRC16 (40_crc.md R94 to R100): each per-byte step is linear over exclusive-or, so that two of them are
equal once they agree on the high byte, the low byte and the input byte; and the residue of an appended checksum. -/

namespace Sys2Proof.Machine

/-- A function that takes exclusive-or to exclusive-or. -/
def XorLinear {m n : Nat} (f : BitVec m → BitVec n) : Prop := ∀ x y, f (x ^^^ y) = f x ^^^ f y

theorem XorLinear.comp {m n k : Nat} {g : BitVec n → BitVec k} {f : BitVec m → BitVec n} (hg : XorLinear g)
    (hf : XorLinear f) : XorLinear fun x => g (f x) := fun x y =>
  (congrArg g (hf x y)).trans (hg (f x) (f y))

theorem XorLinear.xor {m n : Nat} {f g : BitVec m → BitVec n} (hf : XorLinear f) (hg : XorLinear g) :
    XorLinear fun x => f x ^^^ g x := fun x y => by
  change f (x ^^^ y) ^^^ g (x ^^^ y) = f x ^^^ g x ^^^ (f y ^^^ g y)
  rw [hf, hg]
  ac_rfl

theorem XorLinear.zero {m n : Nat} {f : BitVec m → BitVec n} (hf : XorLinear f) : f 0#m = 0#n := by
  have h := hf 0#m 0#m
  rwa [BitVec.xor_self, BitVec.xor_self] at h

/-- Two linear functions are equal once they agree on every single bit. -/
theorem XorLinear.ext {m n : Nat} {f g : BitVec m → BitVec n} (hf : XorLinear f) (hg : XorLinear g)
    (h : ∀ i : Fin m, f (BitVec.twoPow m i) = g (BitVec.twoPow m i)) (v : BitVec m) : f v = g v := by
  have hbelow : ∀ k ≤ m, ∀ v : BitVec m, (∀ j, k ≤ j → v.getLsbD j = false) → f v = g v := by
    intro k
    induction k with
    | zero =>
      intro _ v hv
      obtain rfl : v = 0#m := BitVec.eq_of_getLsbD_eq fun j _ => by rw [hv j (Nat.zero_le j), BitVec.getLsbD_zero]
      rw [hf.zero, hg.zero]
    | succ k ih =>
      intro hk v hv
      cases hbit : v.getLsbD k with
      | false =>
        exact ih (by omega) v fun j hj => (Nat.eq_or_lt_of_le hj).elim (fun heq => heq ▸ hbit) (hv j)
      | true =>
        have hrest : f (v ^^^ BitVec.twoPow m k) = g (v ^^^ BitVec.twoPow m k) := by
          refine ih (by omega) _ fun j hj => ?_
          rw [BitVec.getLsbD_xor, BitVec.getLsbD_twoPow]
          obtain rfl | hlt := Nat.eq_or_lt_of_le hj
          · simp [hbit, show k < m by omega]
          · simp [hv j hlt, show k ≠ j by omega]
        rw [hf, hg, h ⟨k, hk⟩] at hrest
        exact (BitVec.xor_left_inj _).mp hrest
  exact hbelow m le_rfl v fun j hj => BitVec.getLsbD_of_ge v j hj

theorem xorLinear_shiftLeft {w : Nat} (n : Nat) : XorLinear fun x : BitVec w => x <<< n := fun x y =>
  BitVec.shiftLeft_xor_distrib x y n

theorem xorLinear_ushiftRight {w : Nat} (n : Nat) : XorLinear fun x : BitVec w => x >>> n := fun x y =>
  BitVec.ushiftRight_xor_distrib x y n

theorem xorLinear_setWidth {w : Nat} (n : Nat) : XorLinear fun x : BitVec w => x.setWidth n := fun _ _ =>
  BitVec.setWidth_xor

/-- A constant taken in where a bit is set. -/
theorem xorLinear_ite_getLsbD {w n : Nat} (i : Nat) (k : BitVec n) :
    XorLinear fun x : BitVec w => if x.getLsbD i then k else 0#n := fun x y => by
  cases hx : x.getLsbD i <;> cases hy : y.getLsbD i <;> simp [BitVec.getLsbD_xor, hx, hy]

theorem XorLinear.rounds {w : Nat} {f : BitVec w → BitVec w} (hf : XorLinear f) (n : Nat) :
    XorLinear (rounds f n) := by
  induction n with
  | zero => exact fun _ _ => rfl
  | succ n ih => exact ih.comp hf

theorem and_twoPow_ne_zero {w i : Nat} (hi : i < w) (c : BitVec w) :
    c &&& BitVec.twoPow w i ≠ 0#w ↔ c.getLsbD i = true := by
  rw [BitVec.and_twoPow]
  cases c.getLsbD i
  · simp
  · simpa using fun h => by
      have := congrArg (BitVec.getLsbD · i) h
      simp [hi] at this

/-- R92's round without its branch. -/
theorem tableRound_eq (c : U16) : tableRound c = (c <<< 1) ^^^ (if c.getLsbD 15 then crcPoly else 0#16) := by
  have h := and_twoPow_ne_zero (show 15 < 16 by decide) c
  rw [tableRound, show 0x8000#16 = BitVec.twoPow 16 15 from rfl]
  cases hc : c.getLsbD 15 <;> simp_all

/-- R100's round without its branch. -/
theorem reflectedRound_eq (c : U16) :
    reflectedRound c = (c >>> 1) ^^^ (if c.getLsbD 0 then 0x8408#16 else 0#16) := by
  have h := and_twoPow_ne_zero (show 0 < 16 by decide) c
  rw [reflectedRound, show 1#16 = BitVec.twoPow 16 0 from rfl]
  cases hc : c.getLsbD 0 <;> simp_all

theorem xorLinear_tableRound : XorLinear tableRound := by
  rw [funext tableRound_eq]
  exact (xorLinear_shiftLeft 1).xor (xorLinear_ite_getLsbD 15 crcPoly)

theorem xorLinear_reflectedRound : XorLinear reflectedRound := by
  rw [funext reflectedRound_eq]
  exact (xorLinear_ushiftRight 1).xor (xorLinear_ite_getLsbD 0 0x8408#16)

theorem xorLinear_TABLE : XorLinear TABLE :=
  (xorLinear_tableRound.rounds 8).comp ((xorLinear_shiftLeft 8).comp (xorLinear_setWidth 16))

/-- The sum of R90 and R91 after its first `n` terms. -/
def reflectTerms {w : Nat} (v : BitVec w) (n : Nat) : BitVec w :=
  (List.range n).foldl (fun acc i => acc ||| (((v >>> i) &&& 1#w) <<< (w - 1 - i))) 0#w

theorem reflect_eq_reflectTerms {w : Nat} (v : BitVec w) : reflect v = reflectTerms v w := rfl

theorem reflectTerms_succ {w : Nat} (v : BitVec w) (n : Nat) :
    reflectTerms v (n + 1) = reflectTerms v n ||| (((v >>> n) &&& 1#w) <<< (w - 1 - n)) := by
  simp [reflectTerms, List.range_succ]

/-- Term `i` of the sum moves bit `i` to place `w - 1 - i`. -/
theorem getLsbD_reflectTerm {w : Nat} (v : BitVec w) {i : Nat} (hi : i < w) (j : Nat) :
    (((v >>> i) &&& 1#w) <<< (w - 1 - i)).getLsbD j = (decide (j = w - 1 - i) && v.getLsbD i) := by
  by_cases hj : j = w - 1 - i
  · subst hj
    simp [show w - 1 - i < w by omega]
  · simp [hj]
    omega

/-- The first `n` terms fill the places from the top down. -/
theorem getLsbD_reflectTerms {w : Nat} (v : BitVec w) {n : Nat} (hn : n ≤ w) (j : Nat) :
    (reflectTerms v n).getLsbD j = (decide (w - n ≤ j ∧ j < w) && v.getLsbD (w - 1 - j)) := by
  induction n with
  | zero => simp [reflectTerms]
  | succ n ih =>
    rw [reflectTerms_succ, BitVec.getLsbD_or, ih (by omega), getLsbD_reflectTerm v (by omega)]
    by_cases hj : j = w - 1 - n
    · simp [hj, show w - 1 - (w - 1 - n) = n by omega, show w - (n + 1) ≤ w - 1 - n by omega,
        show w - 1 - n < w by omega]
    · simp [hj, show w - (n + 1) ≤ j ↔ w - n ≤ j by omega]

/-- REFLECT8 and REFLECT16 on their bits (R90, R91). -/
theorem getLsbD_reflect {w : Nat} (v : BitVec w) {j : Nat} (hj : j < w) :
    (reflect v).getLsbD j = v.getLsbD (w - 1 - j) := by
  rw [reflect_eq_reflectTerms, getLsbD_reflectTerms v (le_refl w)]
  simp [hj]

theorem xorLinear_reflect (w : Nat) : XorLinear (reflect (w := w)) := fun x y =>
  BitVec.eq_of_getLsbD_eq fun j hj => by
    rw [BitVec.getLsbD_xor, getLsbD_reflect _ hj, getLsbD_reflect _ hj, getLsbD_reflect _ hj, BitVec.getLsbD_xor]

theorem reflect_reflect {w : Nat} (v : BitVec w) : reflect (reflect v) = v :=
  BitVec.eq_of_getLsbD_eq fun j hj => by
    rw [getLsbD_reflect _ hj, getLsbD_reflect _ (by omega), show w - 1 - (w - 1 - j) = j by omega]

/-! Per-byte steps, linear in the register and the byte together. -/

/-- A per-byte step that is linear in register and byte. -/
def XorLinearStep (f : U16 → Byte → U16) : Prop := ∀ c d a b, f (c ^^^ d) (a ^^^ b) = f c a ^^^ f d b

/-- Two linear steps are equal once they agree on every single bit, of the register and of the byte. -/
theorem XorLinearStep.ext {f g : U16 → Byte → U16} (hf : XorLinearStep f) (hg : XorLinearStep g)
    (register : ∀ i : Fin 16, f (BitVec.twoPow 16 i) 0 = g (BitVec.twoPow 16 i) 0)
    (input : ∀ i : Fin 8, f 0 (BitVec.twoPow 8 i) = g 0 (BitVec.twoPow 8 i)) (c : U16) (b : Byte) : f c b = g c b := by
  have hsplit : ∀ {h : U16 → Byte → U16}, XorLinearStep h → h c b = h c 0 ^^^ h 0 b := fun hh => by
    rw [← hh]; simp
  have hregister : ∀ {h : U16 → Byte → U16}, XorLinearStep h → XorLinear (h · 0) := fun hh x y => by
    simpa using hh x y 0 0
  have hinput : ∀ {h : U16 → Byte → U16}, XorLinearStep h → XorLinear (h 0) := fun hh x y => by
    simpa using hh 0 0 x y
  rw [hsplit hf, hsplit hg, (hregister hf).ext (hregister hg) register c, (hinput hf).ext (hinput hg) input b]

theorem xorLinearStep_crcStep : XorLinearStep crcStep := fun c d a b => by
  have harg : ((c ^^^ d) >>> 8).setWidth 8 ^^^ reflect8 (a ^^^ b) =
      ((c >>> 8).setWidth 8 ^^^ reflect8 a) ^^^ ((d >>> 8).setWidth 8 ^^^ reflect8 b) := by
    rw [BitVec.ushiftRight_xor_distrib, BitVec.setWidth_xor, reflect8, xorLinear_reflect]
    simp only [reflect8]
    ac_rfl
  rw [crcStep, harg, xorLinear_TABLE, BitVec.shiftLeft_xor_distrib, crcStep, crcStep]
  ac_rfl

/-- The input bit enters against the top bit, and R92's round follows (R99). -/
theorem serialBit_eq_tableRound (c : U16) (x : Bool) :
    serialBit c x = tableRound (c ^^^ if x then 0x8000#16 else 0#16) := by
  rw [tableRound_eq, BitVec.getLsbD_xor, BitVec.shiftLeft_xor_distrib, serialBit, BitVec.msb_eq_getLsbD_last]
  cases x <;> cases c.getLsbD 15 <;> simp

theorem serialBit_xor (c d : U16) (x y : Bool) : serialBit (c ^^^ d) (x ^^ y) = serialBit c x ^^^ serialBit d y := by
  have hbit : (if (x ^^ y) then 0x8000#16 else 0#16) =
      (if x then 0x8000#16 else 0#16) ^^^ (if y then 0x8000#16 else 0#16) := by
    cases x <;> cases y <;> rfl
  rw [serialBit_eq_tableRound, serialBit_eq_tableRound, serialBit_eq_tableRound, ← xorLinear_tableRound, hbit]
  congr 1
  ac_rfl

theorem xorLinearStep_serialByte : XorLinearStep serialByte := by
  intro c d a b
  unfold serialByte
  induction List.range 8 generalizing c d with
  | nil => rfl
  | cons i is ih => rw [List.foldl_cons, List.foldl_cons, List.foldl_cons, BitVec.getLsbD_xor, serialBit_xor, ih]

theorem xorLinearStep_reflectedByte : XorLinearStep reflectedByte := fun c d a b => by
  rw [reflectedByte, reflectedByte, reflectedByte, ← xorLinear_reflectedRound.rounds 8, BitVec.setWidth_xor]
  congr 1
  ac_rfl

theorem xorLinear_RTABLE : XorLinear RTABLE :=
  (xorLinear_reflect 16).comp (xorLinear_TABLE.comp (xorLinear_reflect 8))

theorem xorLinearStep_reflectedTableByte : XorLinearStep reflectedTableByte := fun c d a b => by
  have harg : (c ^^^ d ^^^ (a ^^^ b).setWidth 16).setWidth 8 =
      (c ^^^ a.setWidth 16).setWidth 8 ^^^ (d ^^^ b.setWidth 16).setWidth 8 := by
    simp only [BitVec.setWidth_xor]
    ac_rfl
  rw [reflectedTableByte, harg, xorLinear_RTABLE, BitVec.ushiftRight_xor_distrib, reflectedTableByte,
    reflectedTableByte]
  ac_rfl

/-- CRC_STEP seen through REFLECT16 on both sides, the form R100 compares with. -/
def crcStepReflected (c : U16) (b : Byte) : U16 := reflect16 (crcStep (reflect16 c) b)

theorem xorLinearStep_crcStepReflected : XorLinearStep crcStepReflected := fun c d a b => by
  simp only [crcStepReflected, reflect16]
  rw [xorLinear_reflect, xorLinearStep_crcStep, xorLinear_reflect]

/-- R99: eight bit-serial rounds are one table step. -/
theorem serialByte_eq_crcStep (c : U16) (b : Byte) : serialByte c b = crcStep c b :=
  xorLinearStep_serialByte.ext xorLinearStep_crcStep (by decide +kernel) (by decide +kernel) c b

/-- R100, the reflected form's byte. -/
theorem reflectedByte_eq (c : U16) (b : Byte) : reflectedByte c b = crcStepReflected c b :=
  xorLinearStep_reflectedByte.ext xorLinearStep_crcStepReflected (by decide +kernel)
    (by decide +kernel) c b

/-- R100, the byte-table variant's byte. -/
theorem reflectedTableByte_eq (c : U16) (b : Byte) : reflectedTableByte c b = crcStepReflected c b :=
  xorLinearStep_reflectedTableByte.ext xorLinearStep_crcStepReflected (by decide +kernel)
    (by decide +kernel) c b

/-- Reflecting once at the end is reflecting around every step, from the start value that is its own reflection. -/
theorem foldl_crcStepReflected (S : Bytes) :
    S.foldl crcStepReflected crcInit = reflect16 (S.foldl crcStep crcInit) := by
  have hgen : ∀ c, S.foldl crcStepReflected (reflect16 c) = reflect16 (S.foldl crcStep c) := by
    induction S with
    | nil => exact fun _ => rfl
    | cons b S ih =>
      intro c
      rw [List.foldl_cons, List.foldl_cons, ← ih, crcStepReflected,
        show reflect16 (reflect16 c) = c from reflect_reflect c]
  exact hgen crcInit

theorem crcRangeSerial_eq (S : Bytes) (o l : Nat) : crcRangeSerial S o l = crcRange S o l := by
  rw [crcRangeSerial, crcRange, funext₂ serialByte_eq_crcStep]

theorem crcRangeReflected_eq (S : Bytes) (o l : Nat) : crcRangeReflected S o l = crcRange S o l := by
  rw [crcRangeReflected, crcRange, funext₂ reflectedByte_eq, foldl_crcStepReflected]

theorem crcRangeReflectedTable_eq (S : Bytes) (o l : Nat) : crcRangeReflectedTable S o l = crcRange S o l := by
  rw [crcRangeReflectedTable, crcRange, funext₂ reflectedTableByte_eq, foldl_crcStepReflected]

theorem crc16_of_le {S : Bytes} {o l : Nat} (h : o + l ≤ S.length) : crc16 S o l = some (crcRange S o l) :=
  if_pos h

/-- CRC16 on an in-range range reports the value and touches nothing else (R95). -/
theorem exec_crc16_of_le {S : Bytes} {o l : Nat} (h : o + l ≤ S.length) (s : State) :
    exec (.crc16 S o l) s = .next { s with returned := s.returned ++ [(s.conn, .crc (crcRange S o l))] } := by
  change execCrc16 S o l s = _
  rw [execCrc16, crc16_of_le h]
  rfl

theorem exec_crc16_of_lt {S : Bytes} {o l : Nat} (h : S.length < o + l) (s : State) :
    exec (.crc16 S o l) s = .refused (.crcRange o l S.length) := by
  change execCrc16 S o l s = _
  rw [execCrc16, crc16_eq_none_iff.mpr h]

/-- Settles O9, by `serialByte_eq_crcStep` byte after byte. -/
theorem crc16ReturnsSerialForm : Obligations.Crc16ReturnsSerialForm := by
  unfold Obligations.Crc16ReturnsSerialForm
  intro S o l s h
  rw [exec_crc16_of_le h, crcRangeSerial_eq]

/-- Settles O10: both reflected forms step as CRC_STEP seen through REFLECT16. -/
theorem crc16EqualsReflectedForms : Obligations.Crc16EqualsReflectedForms := by
  unfold Obligations.Crc16EqualsReflectedForms
  intro S o l h
  rw [crc16_of_le h, crcRangeReflected_eq, crcRangeReflectedTable_eq]
  exact ⟨rfl, rfl⟩

/-- Settles O11, the complement of the in-range condition. -/
theorem crc16OutOfRangeRefused : Obligations.Crc16OutOfRangeRefused :=
  fun _ _ _ s h => exec_crc16_of_lt h s

theorem crcRange_empty (S : Bytes) (o : Nat) : crcRange S o 0 = 0 := by
  have hinit : reflect16 crcInit ^^^ crcXorOut = 0 := by decide +kernel
  rw [crcRange, slice, Nat.add_zero, Nat.sub_self, List.take_zero, List.foldl_nil, hinit]

/-- Settles O13: the range selects its bytes, and no byte leaves the start value, which the last two operations undo. -/
theorem crc16OffsetSelects : Obligations.Crc16OffsetSelects := by
  unfold Obligations.Crc16OffsetSelects
  refine ⟨fun A M B => ?_, fun S o h => ?_⟩
  · rw [crc16_of_le (by simp), crc16_of_le (by simp), crcRange, crcRange, slice_middle, slice_zero, Nat.zero_add,
      List.take_length]
  · rw [crc16_of_le (by omega), crcRange_empty]

/-! The residue of an appended checksum (40_crc.md section 4), in the reflected form. -/

/-- The bit a round of R100 drops comes back at the top, so nothing but zero goes to zero. -/
theorem reflectedRound_eq_zero {c : U16} (h : reflectedRound c = 0#16) : c = 0#16 := by
  have hlt := c.isLt
  rw [reflectedRound_eq, BitVec.xor_eq_zero_iff] at h
  have hnat := congrArg BitVec.toNat h
  rw [BitVec.toNat_ushiftRight, Nat.shiftRight_eq_div_pow] at hnat
  cases hbit : c.getLsbD 0 with
  | false =>
    have heven : c.toNat % 2 = 0 := by simpa [BitVec.getLsbD, Nat.testBit_zero] using hbit
    rw [hbit, if_neg Bool.false_ne_true, BitVec.toNat_ofNat] at hnat
    exact BitVec.eq_of_toNat_eq (by simp; omega)
  | true =>
    rw [hbit, if_pos rfl, BitVec.toNat_ofNat] at hnat
    omega

theorem rounds_reflectedRound_eq_zero {n : Nat} {c : U16} (h : rounds reflectedRound n c = 0#16) : c = 0#16 := by
  induction n generalizing c with
  | zero => exact h
  | succ n ih => exact reflectedRound_eq_zero (ih h)

theorem rounds_add {α : Type} (f : α → α) (m n : Nat) (x : α) : rounds f (m + n) x = rounds f n (rounds f m x) := by
  induction m generalizing x with
  | zero => rw [Nat.zero_add]; rfl
  | succ m ih => rw [Nat.succ_add]; exact ih (f x)

/-- A byte that stands eight places up takes eight rounds to come down, and is untouched by them. -/
theorem rounds_reflectedRound_high (b : Byte) :
    rounds reflectedRound 8 (b.setWidth 16 <<< 8) = b.setWidth 16 :=
  ((xorLinear_reflectedRound.rounds 8).comp ((xorLinear_shiftLeft 8).comp (xorLinear_setWidth 16))).ext
    (xorLinear_setWidth 16) (by decide +kernel) b

/-- A 16-bit value is its low byte and its high byte, eight places up. -/
theorem xor_extract_bytes (v : U16) :
    (v.extractLsb' 0 8).setWidth 16 ^^^ (v.extractLsb' 8 8).setWidth 16 <<< 8 = v :=
  BitVec.eq_of_getLsbD_eq fun i hi => by
    by_cases h : i < 8
    · simp [h, hi]
    · simp [h, hi, show i - 8 < 8 by omega, show 8 + (i - 8) = i by omega]

/-- Two bytes of the reflected form, low byte first, are sixteen rounds on the 16-bit value. -/
theorem foldl_reflectedByte_le16 (c C : U16) :
    (le16 C).foldl reflectedByte c = rounds reflectedRound 16 (c ^^^ C) := by
  conv_rhs => rw [← xor_extract_bytes C, ← BitVec.xor_assoc]
  change _ = rounds reflectedRound (8 + 8) _
  rw [rounds_add, xorLinear_reflectedRound.rounds 8, rounds_reflectedRound_high]
  rfl

/-- CRC16 of a sequence with two bytes behind it. -/
theorem crcRange_append_le16 (M : Bytes) (C : U16) :
    crcRange (M ++ le16 C) 0 (M.length + 2) =
      rounds reflectedRound 16 (crcRange M 0 M.length ^^^ C ^^^ 0xFFFF) ^^^ 0xFFFF := by
  have hM : M.foldl reflectedByte crcInit = crcRange M 0 M.length ^^^ 0xFFFF := by
    rw [← crcRangeReflected_eq, crcRangeReflected, slice_zero, Nat.zero_add, List.take_length, crcXorOut,
      BitVec.xor_assoc]
    exact (BitVec.xor_zero).symm
  rw [← crcRangeReflected_eq, crcRangeReflected, slice_zero, Nat.zero_add, ← length_le16 C, ← List.length_append,
    List.take_length, List.foldl_append, foldl_reflectedByte_le16, hM]
  congr 2
  ac_rfl

/-- Settles O12: the right checksum leaves 0xFFFF for the last sixteen rounds, which take it to the residue; and the
rounds, being linear with nothing but zero going to zero, take no other value there. -/
theorem crc16ResidueTellsTheChecksum : Obligations.Crc16ResidueTellsTheChecksum := by
  unfold Obligations.Crc16ResidueTellsTheChecksum
  intro M C
  have hresidue : rounds reflectedRound 16 0xFFFF ^^^ 0xFFFF = 0x0F47 := by decide +kernel
  rw [crc16_of_le (by simp), crc16_of_le (by simp), crcRange_append_le16, xorLinear_reflectedRound.rounds 16,
    BitVec.xor_assoc, hresidue, Option.some_inj, Option.some_inj]
  constructor
  · intro h
    have hzero : rounds reflectedRound 16 (crcRange M 0 M.length ^^^ C) = 0#16 := by
      have := congrArg (· ^^^ 0x0F47#16) h
      simpa [BitVec.xor_assoc] using this
    exact BitVec.xor_eq_zero_iff.mp (rounds_reflectedRound_eq_zero hzero)
  · rintro rfl
    rw [BitVec.xor_self, (xorLinear_reflectedRound.rounds 16).zero, BitVec.zero_xor]

end Sys2Proof.Machine
end

section
/-! The rest of PARSE (42_parser.md), BUILD (43_encoder.md) and DISPATCH (44_dispatcher.md): rejected lengths, the device
id, the checksum flag, the bytes PARSE does not look at, BUILD's refusals, and the replies. -/

namespace Sys2Proof.Machine

/-- Settles O28: the two bytes are the declared length, and PARSE's tests reject another. -/
theorem parseRejectsLengthMismatch : Obligations.ParseRejectsLengthMismatch := by
  unfold Obligations.ParseRejectsLengthMismatch
  intro F s lo hi hlo hhi hne
  refine exec_parse_of_rejected (.inr ?_) s
  rwa [readLE16_toNat, byteAt_of_getElem? hlo, byteAt_of_getElem? hhi]

/-- The device id is its raw bytes up to the first NUL, and a NUL and more follow where it is shorter (R146, D8). -/
theorem deviceIdOf_spec (raw : Bytes) :
    (0 : Byte) ∉ deviceIdOf raw ∧ (raw = deviceIdOf raw ∨ ∃ tail, raw = deviceIdOf raw ++ 0 :: tail) := by
  induction raw with
  | nil => exact ⟨List.not_mem_nil, .inl rfl⟩
  | cons b raw ih =>
    obtain ⟨hno, hcut⟩ := ih
    by_cases hb : b = 0
    · subst hb
      exact ⟨List.not_mem_nil, .inr ⟨raw, rfl⟩⟩
    · have hcons : deviceIdOf (b :: raw) = b :: deviceIdOf raw := List.takeWhile_cons_of_pos (by simpa using hb)
      rw [hcons]
      refine ⟨fun hmem => (List.mem_cons.mp hmem).elim (fun h => hb h.symm) hno, ?_⟩
      obtain heq | ⟨tail, heq⟩ := hcut
      · exact .inl (congrArg (b :: ·) heq)
      · exact .inr ⟨tail, congrArg (b :: ·) heq⟩

/-- Settles O30: `deviceIdOf_spec` of the 20 raw bytes. -/
theorem parseDeviceIdStopsAtNul : Obligations.ParseDeviceIdStopsAtNul := by
  unfold Obligations.ParseDeviceIdStopsAtNul
  intro F f hparse
  have hraw := length_deviceIdRaw_of_parse hparse
  obtain ⟨-, -, rfl⟩ := parse_eq_frame_iff.mp hparse
  obtain ⟨hno, hcut⟩ := deviceIdOf_spec (slice F 5 25)
  refine ⟨hno, ?_, hcut⟩
  calc (deviceIdOf (slice F 5 25)).length ≤ (slice F 5 25).length := (List.takeWhile_prefix _).length_le
    _ = 20 := hraw

theorem le16_inj {v w : U16} : le16 v = le16 w ↔ v = w := by
  refine ⟨fun h => ?_, congrArg le16⟩
  rw [← readLE16_le16 v [], h, readLE16_le16]

/-- Two bytes are those of a u16 exactly when they read as it. -/
theorem take_two_drop_eq_le16_iff {F : Bytes} {n : Nat} {C : U16} (h : n + 1 < F.length) :
    (F.drop n).take 2 = le16 C ↔ readLE16 F n = C := by
  rw [drop_eq_le16_append h, List.take_left' (length_le16 _)]
  exact le16_inj

/-- The flag is true exactly when the stored bytes are CRC16 of all before them (R147). -/
theorem checksumFlag_eq_true_iff {F : Bytes} (h : 4 ≤ F.length) :
    checksumFlag F = true ↔ ∃ C, crc16 F 0 (F.length - 4) = some C ∧ (F.drop (F.length - 4)).take 2 = le16 C := by
  rw [checksumFlag, decide_eq_true_iff, crc16_of_le (by omega)]
  simp [take_two_drop_eq_le16_iff (show F.length - 4 + 1 < F.length by omega)]

/-- Settles O31: the record is `frameOf F`, whose flag `checksumFlag_eq_true_iff` reads. -/
theorem parseFlagsTheChecksum : Obligations.ParseFlagsTheChecksum := by
  unfold Obligations.ParseFlagsTheChecksum
  intro F s hlen hdecl
  exact ⟨frameOf F, exec_parse_of_accepted hlen hdecl s, checksumFlag_eq_true_iff (by omega)⟩

section between
variable {F G : Bytes} {m n : Nat}

/-! Two sequences that agree on a slice agree on what lies inside it. -/

theorem byteAt_congr_slice (h : slice F m n = slice G m n) {i : Nat} (hm : m ≤ i) (hn : i < n) :
    byteAt F i = byteAt G i := by
  have hF := byteAt_slice (S := F) (a := m) (b := n) (i := i - m) (by omega)
  have hG := byteAt_slice (S := G) (a := m) (b := n) (i := i - m) (by omega)
  rw [Nat.add_sub_cancel' hm] at hF hG
  rw [← hF, h, hG]

theorem readLE16_congr_slice (h : slice F m n = slice G m n) {i : Nat} (hm : m ≤ i) (hn : i + 1 < n) :
    readLE16 F i = readLE16 G i := by
  rw [readLE16, readLE16, byteAt_congr_slice h hm (by omega), byteAt_congr_slice h (by omega) hn]

theorem readBE16_congr_slice (h : slice F m n = slice G m n) {i : Nat} (hm : m ≤ i) (hn : i + 1 < n) :
    readBE16 F i = readBE16 G i := by
  rw [readBE16, readBE16, byteAt_congr_slice h hm (by omega), byteAt_congr_slice h (by omega) hn]

theorem slice_slice (S : Bytes) {a b : Nat} (hm : m ≤ a) (hn : b ≤ n) :
    slice (slice S m n) (a - m) (b - m) = slice S a b := by
  simp only [slice, List.drop_take, List.drop_drop, List.take_take]
  congr 2 <;> omega

theorem slice_congr_slice (h : slice F m n = slice G m n) {a b : Nat} (hm : m ≤ a) (hn : b ≤ n) :
    slice F a b = slice G a b := by
  rw [← slice_slice F hm hn, h, slice_slice G hm hn]

end between

/-- What PARSE reads from between marker and footer is the same where those bytes are (D7). -/
theorem checksumFlag_congr {F G : Bytes} (hlen : F.length = G.length) (h4 : 6 ≤ F.length)
    (h : slice F 2 (F.length - 2) = slice G 2 (F.length - 2)) (hmark : F.take 2 = G.take 2) :
    checksumFlag F = checksumFlag G := by
  have htake : F.take (F.length - 4) = G.take (F.length - 4) := by
    rw [← List.take_append_drop 2 (F.take _), ← List.take_append_drop 2 (G.take _), List.take_take, List.take_take,
      Nat.min_eq_left (by omega), hmark, List.drop_take, List.drop_take]
    exact congrArg _ (slice_congr_slice h (le_refl 2) (by omega))
  have hcrc : crcRange F 0 (F.length - 4) = crcRange G 0 (F.length - 4) := by
    simp only [crcRange, slice_zero, Nat.zero_add, htake]
  rw [checksumFlag, checksumFlag, ← hlen, hcrc, readLE16_congr_slice h (by omega) (by omega)]

/-- Settles O32: every offset PARSE reads a field from lies between marker and footer, and the checksum reads beyond them
only the marker. -/
theorem parseIgnoresMarkerAndFooter : Obligations.ParseIgnoresMarkerAndFooter := by
  unfold Obligations.ParseIgnoresMarkerAndFooter
  intro F G f hlen hmid hparse
  obtain ⟨h31, hdecl, rfl⟩ := parse_eq_frame_iff.mp hparse
  have h : slice F 2 (F.length - 2) = slice G 2 (F.length - 2) := by
    rw [← hlen] at hmid
    simpa only [slice, Nat.sub_sub] using hmid
  have hraw : slice F 5 25 = slice G 5 25 := slice_congr_slice h (by omega) (by omega)
  have hdeclG : (readLE16 G 2).toNat = G.length := by
    rw [← hlen, ← hdecl, readLE16_congr_slice h (by omega) (by omega)]
  refine ⟨frameOf G, parse_eq_frame_iff.mpr ⟨by omega, hdeclG, rfl⟩, ?_, ?_, ?_, ?_, ?_, fun hmark => ?_⟩
  · exact (byteAt_congr_slice h (by omega) (by omega)).symm
  · exact hraw.symm
  · exact congrArg deviceIdOf hraw.symm
  · exact (readBE16_congr_slice h (by omega) (by omega)).symm
  · rw [frameOf_content, frameOf_content, ← hlen]
    exact (slice_congr_slice h (by omega) (by omega)).symm
  · exact (checksumFlag_congr hlen (by omega) h hmark).symm

/-! BUILD -/

/-- What BUILD refuses, `exec` refuses (R162). -/
theorem exec_build_of_refused {v : Byte} {id : Bytes} {t : U16} {content : Option Bytes} {r : Refusal}
    (h : build v id t (content.getD []) = .error r) (s : State) : exec (.build v id t content) s = .refused r := by
  change execBuild v id t content s = _
  rw [execBuild, contentOrEmpty_eq_getD, h]

/-- Settles O34: the id is looked at first, then the content. -/
theorem buildRefusesBadOperands : Obligations.BuildRefusesBadOperands := by
  unfold Obligations.BuildRefusesBadOperands
  exact fun v id t content s =>
    ⟨fun hid => exec_build_of_refused (build_eq_error_iff.mpr (.inl ⟨hid, rfl⟩)) s,
      fun hid hc => exec_build_of_refused (build_eq_error_iff.mpr (.inr ⟨hid, hc, rfl⟩)) s⟩

/-! DISPATCH -/

/-- What is composed for a request is a reply to it (R178, R189, R164). -/
theorem isReply_composed {f : Frame} (hid : f.deviceIdRaw.length = 20) {t : U16} {c : Bytes} (hc : c.length ≤ 65504) :
    IsReply f t c (composed f.version f.deviceIdRaw t c) :=
  ⟨by rw [length_composed, hid], take_two_composed, drop_composed hid, _, parse_composed hid hc, rfl, rfl, rfl, rfl, rfl⟩

/-- The content of a LOGIN reply (R177). -/
def loginReplyContent (c : Bytes) (now : U32) : Bytes :=
  [0xFF, 0xFF, 0xFF, 0xFF, 0x00, 0x00] ++ if 8 ≤ c.length then (c.drop 4).take 4 else le32 now

theorem loginReplyContent_eq (c : Bytes) (now : U32) :
    loginAccepted ++ loginTimestamp c now = loginReplyContent c now := rfl

theorem length_loginReplyContent (c : Bytes) (now : U32) : (loginReplyContent c now).length = 10 := by
  rw [← loginReplyContent_eq, List.length_append, length_loginTimestamp]
  rfl

/-- LOGIN's rule: a reply with the accepted marker, the zero field and the clock (R177). -/
theorem replyLogin_isReply {f : Frame} (hid : f.deviceIdRaw.length = 20) (now : U32) :
    ∃ out, replyLogin f now = .ok (some out) ∧ IsReply f 0x9001 (loginReplyContent f.content now) out :=
  ⟨_, replyLogin_ok hid now, isReply_composed hid (by rw [length_loginReplyContent]; omega)⟩

/-- HEARTBEAT's rule, which is the legacy heartbeat's too (R180, R181). -/
theorem replyHeartbeat_isReply {f : Frame} (hid : f.deviceIdRaw.length = 20) (now : U32) :
    ∃ out, replyHeartbeat f now = .ok (some out) ∧ IsReply f 0x9003 [] out :=
  ⟨_, replyHeartbeat_ok hid now, isReply_composed hid (by simp)⟩

/-- ALARM's rule for a content with an index (R182). -/
theorem replyAlarm_isReply {f : Frame} (hid : f.deviceIdRaw.length = 20) (hc : 4 ≤ f.content.length) (now : U32) :
    ∃ out, replyAlarm f now = .ok (some out) ∧ IsReply f 0xC007 (f.content.take 4) out :=
  ⟨_, replyAlarm_ok hid hc now, isReply_composed hid (by rw [List.length_take]; omega)⟩

/-- Settles O37, by LOGIN's rule. -/
theorem dispatchAnswersLogin : Obligations.DispatchAnswersLogin := by
  unfold Obligations.DispatchAnswersLogin
  intro f now s hid htype
  obtain ⟨out, hrule, hreply⟩ := replyLogin_isReply hid now
  refine ⟨out, exec_dispatch_of_ok ((dispatch_of_login htype now).trans hrule) s, ?_, hreply⟩
  rw [hreply.1, length_loginReplyContent]

/-- The two heartbeats are answered alike (R180, R181). -/
theorem dispatch_of_heartbeats {f : Frame} (h : f.messageType = 0x1003 ∨ f.messageType = 0x6001) (now : U32) :
    dispatch f now = replyHeartbeat f now :=
  h.elim (dispatch_of_heartbeat · now) (dispatch_of_heartbeatLegacy · now)

/-- Settles O39: the rule reads version and raw id only. -/
theorem dispatchAnswersHeartbeats : Obligations.DispatchAnswersHeartbeats := by
  unfold Obligations.DispatchAnswersHeartbeats
  intro f now s hid htype
  obtain ⟨out, hrule, hreply⟩ := replyHeartbeat_isReply hid now
  refine ⟨out, exec_dispatch_of_ok ((dispatch_of_heartbeats htype now).trans hrule) s, hreply.1, hreply, ?_⟩
  intro g hversion hraw hg
  refine exec_dispatch_of_ok ?_ s
  rw [dispatch_of_heartbeats hg, ← hrule, replyHeartbeat, replyHeartbeat, replyTo, replyTo, hversion, hraw]

/-- Settles O40, by ALARM's rule on either side of 4 content bytes. -/
theorem dispatchAnswersAlarm : Obligations.DispatchAnswersAlarm := by
  unfold Obligations.DispatchAnswersAlarm
  intro f now s htype
  refine ⟨fun hc hid => ?_, fun hc => ?_⟩
  · obtain ⟨out, hrule, hreply⟩ := replyAlarm_isReply hid hc now
    refine ⟨out, exec_dispatch_of_ok ((dispatch_of_alarm htype now).trans hrule) s, ?_, hreply⟩
    rw [hreply.1, List.length_take, Nat.min_eq_left hc]
  · exact exec_dispatch_of_ok ((dispatch_of_alarm htype now).trans (replyAlarm_none hc now)) s

/-- The lookup and its rules read version, raw id, type and content, and nothing else of the record (R175). -/
theorem dispatch_congr {f g : Frame} (hversion : f.version = g.version) (hraw : f.deviceIdRaw = g.deviceIdRaw)
    (htype : f.messageType = g.messageType) (hcontent : f.content = g.content) (now : U32) :
    dispatch f now = dispatch g now := by
  have hreply : ∀ t c, replyTo f t c = replyTo g t c := fun t c => by rw [replyTo, replyTo, hversion, hraw]
  have hlogin : replyLogin f now = replyLogin g now := by rw [replyLogin, replyLogin, hreply, hcontent]
  have hheartbeat : replyHeartbeat f now = replyHeartbeat g now := hreply _ _
  have hlegacy : replyHeartbeatLegacy f now = replyHeartbeatLegacy g now := hreply _ _
  have halarm : replyAlarm f now = replyAlarm g now := by rw [replyAlarm, replyAlarm, hreply, hcontent]
  rw [dispatch, htype, hlogin, hheartbeat, hlegacy, halarm]
  rfl

/-- Settles O42, by `dispatch_congr`. -/
theorem dispatchIgnoresChecksumFlag : Obligations.DispatchIgnoresChecksumFlag := by
  unfold Obligations.DispatchIgnoresChecksumFlag
  refine ⟨fun f g now s hversion hraw htype hcontent => ?_, fun _ _ => rfl⟩
  change execDispatch (.frame f) now s = execDispatch (.frame g) now s
  rw [execDispatch, execDispatch, dispatch_congr hversion hraw htype hcontent]

end Sys2Proof.Machine
end

section
/-! FEED as an instruction (41_reassembler.md R110, 20_memory.md section 5): the buffer it writes and those it leaves, a
partial frame, a chunk of nothing, and two connections. -/

namespace Sys2Proof.Machine

/-- FEED keeps the residue and reports the items (R110). -/
theorem exec_feed (chunk : Bytes) (s : State) :
    exec (.feed chunk) s = .next { s with
      mem := Memory.write s.conn (feed frontEndBounds s.buf chunk).2 s.mem
      returned := s.returned ++ [(s.conn, .items (feed frontEndBounds s.buf chunk).1)] } := rfl

/-- A write to the acting connection's BUF is all that happens to the instances. -/
theorem onlyBufBecomes_of_write {s t : State} {v : Bytes} (hwf : s.mem.wf) (hmem : t.mem = Memory.write s.conn v s.mem)
    (hconn : t.conn = s.conn) (hpending : t.pending = s.pending) : OnlyBufBecomes s t v := by
  unfold OnlyBufBecomes
  rw [hmem]
  exact ⟨Memory.write_wf hwf, Memory.read_write_same hwf, fun c hc => Memory.read_write_other hc, hconn, hpending⟩

/-- Settles O14: the frame is that of one write, and conservation is `feed_conserves`. -/
theorem feedConservesBytes : Obligations.FeedConservesBytes := by
  unfold Obligations.FeedConservesBytes
  intro chunk s hwf
  exact ⟨_, _, _, exec_feed chunk s, rfl, onlyBufBecomes_of_write hwf rfl rfl rfl, rfl, rfl,
    (feed_conserves frontEndBounds_valid (s.buf ++ chunk)).symm⟩

/-- Every connection's BUF is in a residue shape, an unlisted one's too (R24, R33). -/
theorem State.Inv.residueShape_read {s : State} (h : s.Inv) (c : Nat) :
    ResidueShape frontEndBounds (Memory.read c s.mem) := by
  obtain hnil | hmem := Memory.read_eq_nil_or_mem c s.mem
  · rw [hnil]; exact .inl (by decide)
  · exact h.2 _ hmem

/-- Settles O19: FEED waits with the BUF it found, and writing that back changes nothing. -/
theorem feedOfNothingIsNoOperation : Obligations.FeedOfNothingIsNoOperation := by
  unfold Obligations.FeedOfNothingIsNoOperation
  intro s hinv
  have hfeed : feed frontEndBounds s.buf [] = ([], s.buf) := by
    rw [feed_eq_feed_nil, List.append_nil]
    exact (hinv.residueShape_read s.conn).feed_eq
  rw [exec_feed, hfeed, State.buf, Memory.write_read_self hinv.1]

/-- Settles O20, by step S4's equation `feed_of_partial`. -/
theorem feedWaitsForPartialFrame : Obligations.FeedWaitsForPartialFrame := by
  unfold Obligations.FeedWaitsForPartialFrame
  intro chunk s hwf h4 hm hmin hmax hlen
  have hfeed : feed frontEndBounds s.buf chunk = ([], s.buf ++ chunk) := feed_of_partial h4 hm hmin hmax hlen
  have hexec := exec_feed chunk s
  rw [hfeed] at hexec
  exact ⟨_, hexec, onlyBufBecomes_of_write hwf rfl rfl rfl, rfl, rfl⟩

/-- Writes to two instances may change places (R34). -/
theorem Memory.write_comm {c d : Nat} (hcd : c ≠ d) (v w : Bytes) {m : Memory} (h : m.wf) :
    Memory.write d w (Memory.write c v m) = Memory.write c v (Memory.write d w m) := by
  refine Memory.ext_of_read (Memory.write_wf (Memory.write_wf h)) (Memory.write_wf (Memory.write_wf h)) fun k => ?_
  by_cases hc : k = c
  · subst hc
    rw [Memory.read_write_other hcd, Memory.read_write_same h, Memory.read_write_same (Memory.write_wf h)]
  by_cases hd : k = d
  · subst hd
    rw [Memory.read_write_same (Memory.write_wf h), Memory.read_write_other hc, Memory.read_write_same h]
  · rw [Memory.read_write_other hd, Memory.read_write_other hc, Memory.read_write_other hc, Memory.read_write_other hd]

/-- Settles O26: each FEED reads what the other leaves alone, and the two writes may change places. -/
theorem feedsOnTwoInstancesCommute : Obligations.FeedsOnTwoInstancesCommute := by
  unfold Obligations.FeedsOnTwoInstancesCommute
  intro s c d x y hwf hcd
  refine ⟨_, _, _, _, (feed frontEndBounds (Memory.read c s.mem) x).1, (feed frontEndBounds (Memory.read d s.mem) y).1,
    exec_feed x _, exec_feed y _, exec_feed y _, exec_feed x _, ?_, ?_, ?_⟩
  · simp only [State.buf, Memory.read_write_other hcd, Memory.read_write_other hcd.symm]
    exact Memory.write_comm hcd _ _ hwf
  · simp [State.buf, Memory.read_write_other hcd.symm]
  · simp [State.buf, Memory.read_write_other hcd]

end Sys2Proof.Machine
end

section
/-! The frame rows (44_dispatcher.md R177 to R186, R191; log 4): the record a well-formed row is parsed to, and the
answer of its rule. -/

namespace Sys2Proof.Machine

/-- The Frame record of a received frame (R61, R143 to R150). -/
def receivedFrame (t : U16) (w : WireFrame) : Frame :=
  { version := w.version
    deviceIdRaw := w.deviceIdRaw
    deviceId := deviceIdOf w.deviceIdRaw
    messageType := t
    content := w.content
    raw := frameBytes t w
    checksumValid :=
      decide (w.checksum = crcRange (frameBody w.version w.deviceIdRaw t w.content) 0 (27 + w.content.length)) }

theorem parse_eq_receivedFrame {t : U16} {w : WireFrame} (hw : w.wellFormed = true) :
    parse (frameBytes t w) = .frame (receivedFrame t w) :=
  parse_frameBytes (wellFormed_iff.mp hw)

/-- The flag of a received frame says whether its stored checksum is right (R147). -/
theorem receivedFrame_checksumValid_iff {t : U16} {w : WireFrame} (hid : w.deviceIdRaw.length = 20) :
    (receivedFrame t w).checksumValid = true ↔
      crc16 (frameBytes t w) 0 ((frameBytes t w).length - 4) = some w.checksum := by
  have hbody : (frameBytes t w).length - 4 = (frameBody w.version w.deviceIdRaw t w.content).length := by
    simp only [length_frameBytes, length_frameBody]; omega
  have hlen : 27 + w.content.length = (frameBody w.version w.deviceIdRaw t w.content).length := by simp [hid]
  rw [crc16_of_le (by omega), hbody, frameBytes, List.append_assoc, crcRange_append_left, receivedFrame,
    decide_eq_true_iff, hlen, Option.some_inj, eq_comm]

section receive
variable {t : U16} {w : WireFrame} {rule : Frame → U32 → Except Refusal (Option Bytes)}

/-- A received frame draws the clock once and reports its record with the rule's answer (R191, R179). -/
theorem receive_frameBytes {r : Option Bytes} (hw : w.wellFormed = true) (s : State)
    (hr : rule (receivedFrame t w) (Config.wallClock s.draws) = .ok r) :
    receive (frameBytes t w) rule s = .next { s with
      draws := s.draws + 1
      returned := s.returned ++ [(s.conn, .rx [.parsed (receivedFrame t w) r])] } := by
  simp only [receive, parse_eq_receivedFrame hw, hr]
  rfl

/-- A rule that answers the record as DISPATCH does may stand for it. -/
theorem receive_eq_receive_dispatch (hw : w.wellFormed = true)
    (h : ∀ now, dispatch (receivedFrame t w) now = rule (receivedFrame t w) now) (s : State) :
    receive (frameBytes t w) rule s = receive (frameBytes t w) dispatch s := by
  simp only [receive, parse_eq_receivedFrame hw, h]

/-- "No reply" is DISPATCH's answer to every type but the four answered ones (R183 to R186). -/
theorem receive_unanswered (hw : w.wellFormed = true) (s : State) (hlogin : t ≠ typeLogin)
    (hheartbeat : t ≠ typeHeartbeat) (hlegacy : t ≠ typeHeartbeatLegacy) (halarm : t ≠ typeAlarm) :
    receive (frameBytes t w) (fun _ _ => .ok none) s = receive (frameBytes t w) dispatch s :=
  receive_eq_receive_dispatch hw
    (dispatch_of_unanswered (f := receivedFrame t w) hlogin hheartbeat hlegacy halarm) s

/-- The row of a type applies to its frame the rule DISPATCH looks up (R175, R191). -/
theorem exec_rowOfType (hw : w.wellFormed = true) (s : State) :
    exec (rowOfType t w) s = receive (frameBytes t w) dispatch s := by
  cases hnamed : namedTypes.contains t with
  | false =>
    have hne : ∀ {u}, u ∈ namedTypes → t ≠ u := fun hu heq =>
      Bool.false_ne_true (hnamed.symm.trans (List.contains_iff_mem.mpr (heq ▸ hu)))
    rw [rowOfType_other hnamed]
    exact receive_unanswered hw s (hne (by decide)) (hne (by decide)) (hne (by decide)) (hne (by decide))
  | true =>
    have hmem : t ∈ namedTypes := List.contains_iff_mem.mp hnamed
    simp only [namedTypes, List.mem_cons, List.not_mem_nil, or_false] at hmem
    obtain rfl | rfl | rfl | rfl | rfl | rfl | rfl | rfl | rfl | rfl := hmem
    · exact receive_eq_receive_dispatch hw (dispatch_of_login (f := receivedFrame _ w) rfl) s
    · exact receive_unanswered hw s (by decide) (by decide) (by decide) (by decide)
    · exact receive_eq_receive_dispatch hw (dispatch_of_heartbeat (f := receivedFrame _ w) rfl) s
    · exact receive_unanswered hw s (by decide) (by decide) (by decide) (by decide)
    · exact receive_unanswered hw s (by decide) (by decide) (by decide) (by decide)
    · exact receive_eq_receive_dispatch hw (dispatch_of_alarm (f := receivedFrame _ w) rfl) s
    · exact receive_eq_receive_dispatch hw (dispatch_of_heartbeatLegacy (f := receivedFrame _ w) rfl) s
    · exact receive_unanswered hw s (by decide) (by decide) (by decide) (by decide)
    · exact receive_unanswered hw s (by decide) (by decide) (by decide) (by decide)
    · exact receive_unanswered hw s (by decide) (by decide) (by decide) (by decide)

end receive

/-- Settles O46, by LOGIN's rule. -/
theorem loginFrameIsAnswered : Obligations.LoginFrameIsAnswered := by
  unfold Obligations.LoginFrameIsAnswered
  intro w s hw
  obtain ⟨out, hrule, hreply⟩ := replyLogin_isReply (f := receivedFrame typeLogin w) (wellFormed_iff.mp hw).1
    (Config.wallClock s.draws)
  exact ⟨_, out, receive_frameBytes hw s hrule, rfl, rfl, rfl, rfl, rfl, hreply⟩

/-- Settles O47, by the rule both heartbeats have. -/
theorem heartbeatFramesAreAnswered : Obligations.HeartbeatFramesAreAnswered := by
  unfold Obligations.HeartbeatFramesAreAnswered
  intro w s i hw hi
  have hanswer : ∀ t, ∃ out, replyHeartbeat (receivedFrame t w) (Config.wallClock s.draws) = .ok (some out) ∧
      IsReply (receivedFrame t w) 0x9003 [] out := fun t => replyHeartbeat_isReply (wellFormed_iff.mp hw).1 _
  obtain rfl | rfl := hi
  · obtain ⟨out, hrule, hreply⟩ := hanswer typeHeartbeat
    exact ⟨_, out, receive_frameBytes hw s hrule, rfl, rfl, rfl, rfl, hreply⟩
  · obtain ⟨out, hrule, hreply⟩ := hanswer typeHeartbeatLegacy
    exact ⟨_, out, receive_frameBytes hw s hrule, rfl, rfl, rfl, rfl, hreply⟩

/-- Settles O48, by ALARM's rule on either side of 4 content bytes. -/
theorem alarmFrameIsAnswered : Obligations.AlarmFrameIsAnswered := by
  unfold Obligations.AlarmFrameIsAnswered
  intro w s hw
  by_cases hc : 4 ≤ w.content.length
  · obtain ⟨out, hrule, hreply⟩ := replyAlarm_isReply (f := receivedFrame typeAlarm w) (wellFormed_iff.mp hw).1 hc
      (Config.wallClock s.draws)
    exact ⟨_, some out, receive_frameBytes hw s hrule, rfl, rfl, rfl, rfl, rfl, fun hlt => absurd hc (by omega),
      fun _ => ⟨out, rfl, hreply⟩⟩
  · have hrule := replyAlarm_none (f := receivedFrame typeAlarm w) (Nat.lt_of_not_le hc) (Config.wallClock s.draws)
    exact ⟨_, none, receive_frameBytes hw s hrule, rfl, rfl, rfl, rfl, rfl, fun _ => rfl, fun hle => absurd hle hc⟩

/-- A row whose rule is "no reply" reports its record alone (R183 to R186). -/
theorem receive_no_reply (t : U16) {w : WireFrame} (hw : w.wellFormed = true) (s : State) :
    ∃ p : Frame, receive (frameBytes t w) (fun _ _ => .ok none) s = .next { s with
        draws := s.draws + 1, returned := s.returned ++ [(s.conn, .rx [.parsed p none])] } ∧
      p.raw = frameBytes t w ∧ p.version = w.version ∧ p.deviceIdRaw = w.deviceIdRaw ∧ p.content = w.content :=
  ⟨receivedFrame t w, receive_frameBytes hw s rfl, rfl, rfl, rfl, rfl⟩

/-- Settles O49: each of these rows has the rule "no reply". -/
theorem otherFramesGetNoReply : Obligations.OtherFramesGetNoReply := by
  unfold Obligations.OtherFramesGetNoReply
  intro w t s i hw hi
  obtain rfl | rfl | rfl | rfl | rfl | rfl | rfl := hi
  · exact receive_no_reply typeLogout hw s
  · exact receive_no_reply typeGps hw s
  · exact receive_no_reply typePid hw s
  · exact receive_no_reply typeLoginReply hw s
  · exact receive_no_reply typeHeartbeatReply hw s
  · exact receive_no_reply typeAlarmReply hw s
  · exact receive_no_reply t hw s

/-- Settles O50: the rule reads neither checksum nor footer (`dispatch_congr`), and the flag is R147's. -/
theorem checksumDoesNotChangeTheReply : Obligations.ChecksumDoesNotChangeTheReply := by
  unfold Obligations.ChecksumDoesNotChangeTheReply
  intro w w' s row hw hversion hraw hcontent hrow
  obtain ⟨t, ht⟩ : ∃ t, ∀ w, row w = rowOfType t w := by
    obtain rfl | rfl | rfl | rfl := hrow
    exacts [⟨typeLogin, fun _ => rfl⟩, ⟨typeHeartbeat, fun _ => rfl⟩, ⟨typeHeartbeatLegacy, fun _ => rfl⟩,
      ⟨typeAlarm, fun _ => rfl⟩]
  have hw' : w'.wellFormed = true := by
    rw [wellFormed_iff, hraw, hcontent]
    exact wellFormed_iff.mp hw
  obtain ⟨r, hr⟩ := dispatch_ok (f := receivedFrame t w) (wellFormed_iff.mp hw).1 (Config.wallClock s.draws)
  have hr' : dispatch (receivedFrame t w') (Config.wallClock s.draws) = .ok r := by
    rw [← hr]
    exact dispatch_congr (f := receivedFrame t w') (g := receivedFrame t w) hversion hraw rfl hcontent _
  refine ⟨receivedFrame t w, receivedFrame t w', r, ?_, ?_, ?_⟩
  · rw [ht, exec_rowOfType hw, receive_frameBytes hw s hr]
  · rw [ht, exec_rowOfType hw', receive_frameBytes hw' s hr']
  · rw [ht, encode_rowOfType]
    exact receivedFrame_checksumValid_iff (wellFormed_iff.mp hw).1

end Sys2Proof.Machine
end

section
/-! RX (44_dispatcher.md R192, R193): its loop item by item, and what it does with one whole frame on an empty BUF. -/

namespace Sys2Proof.Machine

/-- What RX returns for one item, the `NOW` of a dispatched frame given (R192). -/
def RxAnswers (now : U32) : Item → RxResult → Prop
  | .discard kind g, r => r = .discarded kind g
  | .frame F, r => (parse F = .invalid ∧ r = .invalid F) ∨
      ∃ p a, parse F = .frame p ∧ dispatch p now = .ok a ∧ r = .parsed p a

theorem nextNow_value (nows : List U32) (draws : Nat) : (nextNow nows draws).1 = nowAt nows draws 0 := by
  cases nows <;> simp [nextNow, nowAt]

/-- After one draw, the next values are those one further on (R192). -/
theorem nowAt_nextNow (nows : List U32) (draws j : Nat) :
    nowAt (nextNow nows draws).2.1 (nextNow nows draws).2.2 j = nowAt nows draws (j + 1) := by
  cases nows <;> simp [nextNow, nowAt, Nat.add_assoc, Nat.add_comm 1 j]

/-- The wall clock is drawn for what the host's supply does not cover (log 10). -/
theorem draws_nextNow (nows : List U32) (draws n : Nat) :
    (nextNow nows draws).2.2 + (n - (nextNow nows draws).2.1.length) = draws + (n + 1 - nows.length) := by
  cases nows <;> simp [nextNow]; omega

@[simp] theorem dispatchedBefore_zero (items : List Item) : dispatchedBefore items 0 = 0 := rfl

theorem dispatchedBefore_cons_succ (item : Item) (items : List Item) (k : Nat) :
    dispatchedBefore (item :: items) (k + 1) =
      if item.dispatched then dispatchedBefore items k + 1 else dispatchedBefore items k := by
  cases h : item.dispatched <;> simp [dispatchedBefore, h]

/-- One item: its answer, and a value taken from the supply exactly where a frame is dispatched (R192). -/
theorem rxItem_spec (item : Item) (nows : List U32) (draws : Nat) :
    ∃ r, RxAnswers (nowAt nows draws 0) item r ∧
      rxItem item nows draws = .ok (r, if item.dispatched then (nextNow nows draws).2 else (nows, draws)) := by
  cases item with
  | discard kind g => exact ⟨_, rfl, rxItem_discard kind g nows draws⟩
  | frame F =>
    cases hp : parse F with
    | invalid =>
      refine ⟨.invalid F, .inl ⟨hp, rfl⟩, ?_⟩
      rw [rxItem_invalid hp, Item.dispatched, hp]
      rfl
    | frame p =>
      obtain ⟨a, ha⟩ := dispatch_ok (length_deviceIdRaw_of_parse hp) (nextNow nows draws).1
      refine ⟨.parsed p a, .inr ⟨p, a, hp, nextNow_value nows draws ▸ ha, rfl⟩, ?_⟩
      rw [rxItem_parsed hp ha, Item.dispatched, hp]
      rfl

/-- RX's loop: one answer an item, in order, each dispatched frame with its own `NOW` (R192, R193). -/
theorem rxItems_spec (items : List Item) (nows : List U32) (draws : Nat) :
    ∃ rs, rxItems items nows draws = .ok (rs, draws + (dispatchedBefore items items.length - nows.length)) ∧
      rs.length = items.length ∧
      ∀ k item, items[k]? = some item →
        ∃ r, rs[k]? = some r ∧ RxAnswers (nowAt nows draws (dispatchedBefore items k)) item r := by
  induction items generalizing nows draws with
  | nil => exact ⟨[], by simp [rxItems], rfl, by simp⟩
  | cons item items ih =>
    obtain ⟨r, hanswer, hitem⟩ := rxItem_spec item nows draws
    cases hd : item.dispatched with
    | false =>
      rw [hd, if_neg Bool.false_ne_true] at hitem
      obtain ⟨rs, hrs, hlen, hanswers⟩ := ih nows draws
      refine ⟨r :: rs, ?_, by simp [hlen], fun k => ?_⟩
      · simp [rxItems, hitem, hrs, dispatchedBefore_cons_succ, hd]
      · cases k with
        | zero => rintro _ ⟨⟩; exact ⟨r, rfl, hanswer⟩
        | succ k => simpa [dispatchedBefore_cons_succ, hd] using hanswers k
    | true =>
      rw [hd, if_pos rfl] at hitem
      obtain ⟨rs, hrs, hlen, hanswers⟩ := ih (nextNow nows draws).2.1 (nextNow nows draws).2.2
      rw [draws_nextNow] at hrs
      refine ⟨r :: rs, ?_, by simp [hlen], fun k => ?_⟩
      · simp [rxItems, hitem, hrs, dispatchedBefore_cons_succ, hd]
      · cases k with
        | zero => rintro _ ⟨⟩; exact ⟨r, rfl, hanswer⟩
        | succ k => simpa [dispatchedBefore_cons_succ, hd, nowAt_nextNow] using hanswers k

/-- RX keeps FEED's residue and reports its loop's answers (R192). -/
theorem exec_rx_of_rxItems {chunk : Bytes} {nows : List U32} {s : State} {rs : List RxResult} {d : Nat}
    (h : rxItems (feed frontEndBounds s.buf chunk).1 nows s.draws = .ok (rs, d)) :
    exec (.rx chunk nows) s = .next { s with
      mem := Memory.write s.conn (feed frontEndBounds s.buf chunk).2 s.mem
      draws := d
      returned := s.returned ++ [(s.conn, .rx rs)] } := by
  change execRx chunk nows s = _
  rw [execRx, h]
  rfl

/-- Settles O43, by `rxItems_spec`. -/
theorem rxIsFeedThenParseThenDispatch : Obligations.RxIsFeedThenParseThenDispatch := by
  unfold Obligations.RxIsFeedThenParseThenDispatch
  intro chunk nows s hwf
  obtain ⟨rs, hrs, hlen, hanswers⟩ := rxItems_spec (feed frontEndBounds s.buf chunk).1 nows s.draws
  refine ⟨_, _, rs, _, exec_rx_of_rxItems hrs, rfl, onlyBufBecomes_of_write hwf rfl rfl rfl, rfl, rfl, hlen,
    fun k => ⟨fun kind g hk => ?_, fun F hk hp => ?_, fun F p hk hp => ?_⟩⟩
  · obtain ⟨r, hr, hanswer⟩ := hanswers k _ hk
    exact hanswer ▸ hr
  · obtain ⟨r, hr, ⟨-, hanswer⟩ | ⟨p, a, hp', -⟩⟩ := hanswers k _ hk
    · exact hanswer ▸ hr
    · rw [hp] at hp'; cases hp'
  · obtain ⟨r, hr, ⟨hp', -⟩ | ⟨p', a, hp', ha, rfl⟩⟩ := hanswers k _ hk
    · rw [hp] at hp'; cases hp'
    · rw [hp] at hp'; cases hp'
      exact ⟨a, ha, hr⟩

/-- A frame of at most 2048 bytes that is laid out by R60 is one FEED cuts (R114, D1). -/
theorem validFrame_frameBytes {t : U16} {w : WireFrame} (hw : w.wellFormed = true)
    (hlen : (frameBytes t w).length ≤ 2048) : ValidFrame frontEndBounds (frameBytes t w) := by
  obtain ⟨h31, hdecl, -⟩ := parse_eq_frame_iff.mp (parse_eq_receivedFrame (t := t) hw)
  have hmin : 8 ≤ (frameBytes t w).length := by omega
  exact ⟨by omega, ⟨rfl, rfl⟩, hdecl, hmin, hlen⟩

/-- An empty BUF is not listed, so emptying it changes nothing (R33). -/
theorem write_nil_of_buf {s : State} (hwf : s.mem.wf) (hbuf : s.buf = []) : Memory.write s.conn [] s.mem = s.mem := by
  have hself := Memory.write_read_self (c := s.conn) hwf
  rwa [show Memory.read s.conn s.mem = [] from hbuf] at hself

/-- RX of one whole frame on an empty BUF: one PARSED result, and BUF empty again. -/
theorem exec_rx_frameBytes {t : U16} {w : WireFrame} {nows : List U32} {s : State} {r : Option Bytes}
    (hw : w.wellFormed = true) (hlen : (frameBytes t w).length ≤ 2048) (hwf : s.mem.wf) (hbuf : s.buf = [])
    (hr : dispatch (receivedFrame t w) (nextNow nows s.draws).1 = .ok r) :
    exec (.rx (frameBytes t w) nows) s = .next { s with
      draws := (nextNow nows s.draws).2.2
      returned := s.returned ++ [(s.conn, .rx [.parsed (receivedFrame t w) r])] } := by
  have hfeed : feed frontEndBounds s.buf (frameBytes t w) = ([.frame (frameBytes t w)], []) := by
    rw [hbuf]
    exact extract_validFrame (validFrame_frameBytes hw hlen) _
  have hitems : rxItems [.frame (frameBytes t w)] nows s.draws =
      .ok ([.parsed (receivedFrame t w) r], (nextNow nows s.draws).2.2) := by
    simp only [rxItems, rxItem_parsed (parse_eq_receivedFrame hw) hr]
  have hexec := exec_rx_of_rxItems (chunk := frameBytes t w) (nows := nows) (s := s) (by rw [hfeed]; exact hitems)
  rwa [hfeed, write_nil_of_buf hwf hbuf] at hexec

/-- Settles O45: both sides report the record with the answer DISPATCH looks up, at one draw. -/
theorem frameRowIsRxOfItsBytes : Obligations.FrameRowIsRxOfItsBytes := by
  unfold Obligations.FrameRowIsRxOfItsBytes
  intro i s hrow hi hlen hwf hbuf
  obtain ⟨t, w, hw, rfl⟩ := exists_rowOfType hrow hi
  rw [encode_rowOfType] at hlen ⊢
  obtain ⟨r, hr⟩ := dispatch_ok (f := receivedFrame t w) (wellFormed_iff.mp hw).1 (Config.wallClock s.draws)
  rw [exec_rx_frameBytes (nows := []) hw hlen hwf hbuf hr, exec_rowOfType hw, receive_frameBytes hw s hr]
  rfl

/-- A composed frame is a wire frame with the right checksum (R161). -/
theorem exists_frameBytes_eq_composed (v : Byte) (id : Bytes) (t : U16) (c : Bytes) :
    ∃ w : WireFrame, composed v id t c = frameBytes t w ∧ w.version = v ∧ w.deviceIdRaw = id ∧ w.content = c ∧
      (receivedFrame t w).checksumValid = true :=
  ⟨⟨v, id, c, crcRange (frameBody v id t c) 0 (27 + c.length), footByte0, footByte1⟩, rfl, rfl, rfl, rfl,
    decide_eq_true rfl⟩

/-- Settles O44: RX of the composed frame is one PARSED result with LOGIN's reply, which PARSE takes apart. -/
theorem rxAnswersLoginEndToEnd : Obligations.RxAnswersLoginEndToEnd := by
  unfold Obligations.RxAnswersLoginEndToEnd
  intro v id c F nows s hwf hbuf h8 hmax hbuild
  obtain ⟨hid, hc, rfl⟩ := build_eq_ok_iff.mp hbuild
  have hlen : (composed v id 0x1001 c).length ≤ 2048 := by rw [length_composed]; omega
  obtain ⟨w, hF, hversion, hraw, hcontent, hchecksum⟩ := exists_frameBytes_eq_composed v id 0x1001 c
  rw [hF] at hlen ⊢
  have hw : w.wellFormed = true := wellFormed_iff.mpr (by rw [hraw, hcontent]; exact ⟨hid, hc⟩)
  have hrule := replyLogin_ok (f := receivedFrame typeLogin w) (wellFormed_iff.mp hw).1 (nextNow nows s.draws).1
  have hclock : 8 ≤ (receivedFrame typeLogin w).content.length := (congrArg List.length hcontent).symm ▸ h8
  rw [← dispatch_of_login (f := receivedFrame typeLogin w) rfl, loginTimestamp_of_clock hclock] at hrule
  have hreply : (loginAccepted ++ slice w.content 4 8).length ≤ 65504 := by simp [loginAccepted]; omega
  exact ⟨_, _, _, _, exec_rx_frameBytes hw hlen hwf hbuf hrule,
    onlyBufBecomes_of_write hwf (write_nil_of_buf hwf hbuf).symm rfl rfl, rfl, rfl, hchecksum, hraw, hcontent,
    parse_composed (wellFormed_iff.mp hw).1 hreply, rfl, hraw, hversion,
    hcontent ▸ readLE32_loginReply_clock w.content⟩

end Sys2Proof.Machine
end

section
/-! The whole machine (10_state.md, 20_memory.md, 60_exceptions.md): what a completed instruction leaves, what is refused,
and what a step does with each kind of event. -/

namespace Sys2Proof.Machine

/-- Every rule of the dispatcher answers a record whose id has 20 bytes (R162). -/
def AnswersRecords (rule : Frame → U32 → Except Refusal (Option Bytes)) : Prop :=
  ∀ f now, f.deviceIdRaw.length = 20 → ∃ r, rule f now = .ok r

theorem answersRecords_none : AnswersRecords fun _ _ => .ok none := fun _ _ _ => ⟨none, rfl⟩

theorem answersRecords_replyLogin : AnswersRecords replyLogin := fun _ now hid => ⟨_, replyLogin_ok hid now⟩

theorem answersRecords_replyHeartbeat : AnswersRecords replyHeartbeat := fun _ now hid => ⟨_, replyHeartbeat_ok hid now⟩

theorem answersRecords_replyAlarm : AnswersRecords replyAlarm := fun f now hid => by
  by_cases hc : 4 ≤ f.content.length
  · exact ⟨_, replyAlarm_ok hid hc now⟩
  · exact ⟨_, replyAlarm_none (Nat.lt_of_not_le hc) now⟩

/-- A frame row is its frame received with a rule of the dispatcher (R191; log 4). -/
theorem exec_frameRow {i : Instr} (hrow : i.isFrameRow = true) :
    ∃ rule, AnswersRecords rule ∧ ∀ s, exec i s = receive (encode i) rule s := by
  cases i with
  | login => exact ⟨_, answersRecords_replyLogin, fun _ => rfl⟩
  | heartbeat => exact ⟨_, answersRecords_replyHeartbeat, fun _ => rfl⟩
  | heartbeatLegacy => exact ⟨_, answersRecords_replyHeartbeat, fun _ => rfl⟩
  | alarm => exact ⟨_, answersRecords_replyAlarm, fun _ => rfl⟩
  | logout | gps | pid | loginReply | heartbeatReply | alarmReply | other =>
    exact ⟨_, answersRecords_none, fun _ => rfl⟩
  | _ => cases hrow

/-- A received frame always completes: what PARSE returns has a 20-byte id (R144, R202). -/
theorem receive_completes {rule : Frame → U32 → Except Refusal (Option Bytes)} (hrule : AnswersRecords rule) (F : Bytes)
    (s : State) : ∃ t, receive F rule s = .next t := by
  cases hp : parse F with
  | invalid => exact ⟨_, by simp only [receive, hp]; rfl⟩
  | frame p =>
    obtain ⟨r, hr⟩ := hrule p (Config.wallClock s.draws) (length_deviceIdRaw_of_parse hp)
    exact ⟨_, by simp only [receive, hp, hr]; rfl⟩

/-- What a completed instruction leaves: `d` draws in all, one result, and for FEED and RX the residue in BUF. -/
inductive Completes (i : Instr) (s t : State) : Prop
  /-- the buffers stay as they are -/
  | answer (d : Nat) (r : Result) (hd : s.draws ≤ d) (ht : t = (s.setDraws d).deliver r)
  /-- bytes went through FEED's loop -/
  | stream (chunk : Bytes) (hi : i = .feed chunk ∨ ∃ nows, i = .rx chunk nows) (d : Nat) (r : Result)
      (hd : s.draws ≤ d) (ht : t = ((s.setBuf (feed frontEndBounds s.buf chunk).2).setDraws d).deliver r)

/-- The one way an instruction completes without touching buffers or clock. -/
theorem Completes.of_deliver {i : Instr} {s : State} (r : Result) : Completes i s (s.deliver r) :=
  .answer s.draws r le_rfl rfl

theorem receive_next_completes {i : Instr} {F : Bytes} {rule : Frame → U32 → Except Refusal (Option Bytes)}
    {s t : State} (h : receive F rule s = .next t) : Completes i s t := by
  obtain ⟨-, rfl⟩ | ⟨p, r, -, -, rfl⟩ := receive_next h
  · exact .of_deliver _
  · exact .answer _ _ (Nat.le_succ _) rfl

/-- What any instruction can do, said once. -/
theorem exec_next {i : Instr} {s t : State} (h : exec i s = .next t) : Completes i s t := by
  cases hrow : i.isFrameRow with
  | true =>
    obtain ⟨rule, -, hexec⟩ := exec_frameRow hrow
    exact receive_next_completes ((hexec s).symm.trans h)
  | false =>
    cases i with
    | crc16 S o l =>
      obtain ⟨-, rfl⟩ := execCrc16_next h
      exact .of_deliver _
    | feed chunk =>
      cases h
      exact .stream chunk (.inl rfl) s.draws _ le_rfl rfl
    | parse F =>
      cases h
      exact .of_deliver _
    | build v id t' c =>
      change execBuild v id t' c s = _ at h
      unfold execBuild at h
      split at h
      · cases h; exact .of_deliver _
      · cases h
    | dispatch f now =>
      change execDispatch f now s = _ at h
      unfold execDispatch at h
      split at h
      · cases h
      · split at h
        · cases h; exact .of_deliver _
        · cases h
    | rx chunk nows =>
      obtain ⟨rs, hrs, -, -⟩ := rxItems_spec (feed frontEndBounds s.buf chunk).1 nows s.draws
      have heq := (exec_rx_of_rxItems hrs).symm.trans h
      cases heq
      exact .stream chunk (.inr ⟨nows, rfl⟩) _ _ (Nat.le_add_right _ _) rfl
    | _ => cases hrow

/-- Settles O51, from the two ways an instruction completes. -/
theorem onlyFeedAndRxWriteBuffers : Obligations.OnlyFeedAndRxWriteBuffers := by
  unfold Obligations.OnlyFeedAndRxWriteBuffers
  intro i s t h
  cases exec_next h with
  | answer d r _ ht => subst ht; exact ⟨rfl, rfl, fun _ _ => rfl, fun _ _ => rfl⟩
  | stream chunk hi d r _ ht =>
    subst ht
    refine ⟨rfl, rfl, fun c hc => Memory.read_write_other hc, fun hfeed hrx => ?_⟩
    obtain hi | ⟨nows, hi⟩ := hi
    · exact absurd hi (hfeed chunk)
    · exact absurd hi (hrx chunk nows)

/-- Settles O52, from the two ways an instruction completes. -/
theorem eachInstructionReturnsOneResult : Obligations.EachInstructionReturnsOneResult := by
  unfold Obligations.EachInstructionReturnsOneResult
  intro i s t h
  cases exec_next h with
  | answer d r hd ht => exact ht ▸ ⟨hd, r, rfl⟩
  | stream chunk _ d r hd ht => exact ht ▸ ⟨hd, r, rfl⟩

/-! Refusals -/

/-- A reply with a short content is refused for its id alone (R162). -/
theorem replyTo_eq_error_iff {f : Frame} {t : U16} {c : Bytes} {r : Refusal} (hc : c.length ≤ 65504) :
    replyTo f t c = .error r ↔ f.deviceIdRaw.length ≠ 20 ∧ r = .buildId f.deviceIdRaw.length := by
  have hbuild := build_eq_error_iff (v := f.version) (id := f.deviceIdRaw) (t := t) (c := c) (r := r)
  unfold replyTo
  cases h : build f.version f.deviceIdRaw t c with
  | ok b =>
    obtain ⟨hid, -, -⟩ := build_eq_ok_iff.mp h
    simp [hid]
  | error e =>
    rw [h, Except.error.injEq] at hbuild
    rw [Except.error.injEq, hbuild]
    exact or_iff_left fun hlong => absurd hlong.2.1 (by omega)

/-- DISPATCH is refused exactly for an id that is not of 20 bytes when a reply is due (R162, R175; log 22). -/
theorem dispatch_eq_error_iff {f : Frame} {now : U32} {r : Refusal} :
    dispatch f now = .error r ↔ f.deviceIdRaw.length ≠ 20 ∧
      (f.messageType = 0x1001 ∨ f.messageType = 0x1003 ∨ f.messageType = 0x6001 ∨
        (f.messageType = 0x4007 ∧ 4 ≤ f.content.length)) ∧ r = .buildId f.deviceIdRaw.length := by
  by_cases hlogin : f.messageType = 0x1001
  · rw [dispatch_of_login hlogin, replyLogin, loginReplyContent_eq,
      replyTo_eq_error_iff (by rw [length_loginReplyContent]; omega)]
    simp [hlogin]
  by_cases hheartbeats : f.messageType = 0x1003 ∨ f.messageType = 0x6001
  · rw [dispatch_of_heartbeats hheartbeats, replyHeartbeat, replyTo_eq_error_iff (by simp)]
    tauto
  obtain ⟨hheartbeat, hlegacy⟩ := not_or.mp hheartbeats
  by_cases halarm : f.messageType = 0x4007
  · rw [dispatch_of_alarm halarm]
    by_cases hc : 4 ≤ f.content.length
    · rw [replyAlarm, if_pos hc, replyTo_eq_error_iff (by rw [slice_zero, List.length_take]; omega)]
      simp [halarm, hc]
    · simp [replyAlarm_none (Nat.lt_of_not_le hc), halarm, hc]
  · rw [dispatch_of_unanswered hlogin hheartbeat hlegacy halarm]
    refine iff_of_false (by simp) ?_
    rintro ⟨-, ht | ht | ht | ⟨ht, -⟩, -⟩
    exacts [hlogin ht, hheartbeat ht, hlegacy ht, halarm ht]

section refusals
variable {s : State} {r : Refusal}

theorem exec_crc16_refused_iff {S : Bytes} {o l : Nat} :
    exec (.crc16 S o l) s = .refused r ↔ S.length < o + l ∧ r = .crcRange o l S.length := by
  by_cases h : o + l ≤ S.length
  · simp [exec_crc16_of_le h, Nat.not_lt.mpr h]
  · simp [exec_crc16_of_lt (Nat.lt_of_not_le h), Nat.lt_of_not_le h, eq_comm]

theorem exec_build_refused_iff {v : Byte} {id : Bytes} {t : U16} {c : Option Bytes} :
    exec (.build v id t c) s = .refused r ↔
      (id.length ≠ 20 ∧ r = .buildId id.length) ∨
        (id.length = 20 ∧ 65504 < (c.getD []).length ∧ r = .buildContent (c.getD []).length) := by
  rw [← build_eq_error_iff (v := v) (t := t)]
  cases h : build v id t (c.getD []) with
  | ok b =>
    obtain ⟨hid, hc, -⟩ := build_eq_ok_iff.mp h
    simp [exec_build_of_admitted hid hc]
  | error e => simp [exec_build_of_refused h]

theorem exec_dispatch_refused_iff {f : Frame} {now : U32} :
    exec (.dispatch (.frame f) now) s = .refused r ↔ dispatch f now = .error r := by
  change execDispatch (.frame f) now s = _ ↔ _
  unfold execDispatch
  cases h : dispatch f now <;> simp [h]

theorem exec_dispatch_invalid_refused_iff {now : U32} :
    exec (.dispatch .invalid now) s = .refused r ↔ r = .dispatchInvalid := by
  change Host.Outcome.refused Refusal.dispatchInvalid = .refused r ↔ _
  simp [eq_comm]

/-- Frame rows, FEED, PARSE and RX always complete (R202). -/
theorem exec_ne_refused {i : Instr}
    (hi : i.isFrameRow = true ∨ (∃ chunk, i = .feed chunk) ∨ (∃ F, i = .parse F) ∨ ∃ chunk nows, i = .rx chunk nows) :
    exec i s ≠ .refused r := by
  obtain hrow | ⟨chunk, rfl⟩ | ⟨F, rfl⟩ | ⟨chunk, nows, rfl⟩ := hi
  · obtain ⟨rule, hrule, hexec⟩ := exec_frameRow hrow
    obtain ⟨t, ht⟩ := receive_completes hrule (encode i) s
    simp [hexec, ht]
  · simp [exec_feed]
  · simp [exec_parse]
  · obtain ⟨rs, hrs, -⟩ := rxItems_spec (feed frontEndBounds s.buf chunk).1 nows s.draws
    simp [exec_rx_of_rxItems hrs]

end refusals

/-- Settles O53: CRC16, BUILD and DISPATCH each by its own condition; the other instructions complete. -/
theorem refusalsAreExactlyTheSpecs : Obligations.RefusalsAreExactlyTheSpecs := by
  unfold Obligations.RefusalsAreExactlyTheSpecs
  intro i s r
  constructor
  · intro h
    cases i with
    | crc16 S o l => exact .inl ⟨S, o, l, rfl, exec_crc16_refused_iff.mp h⟩
    | build v id t c =>
      obtain hid | ⟨hid, hc, hr⟩ := exec_build_refused_iff.mp h
      · exact .inr (.inl ⟨v, id, t, c, rfl, hid⟩)
      · cases c with
        | none => simp at hc
        | some c => exact .inr (.inr (.inl ⟨v, id, t, c, rfl, hid, hc, hr⟩))
    | dispatch f now =>
      cases f with
      | invalid => exact .inr (.inr (.inr (.inl ⟨now, rfl, exec_dispatch_invalid_refused_iff.mp h⟩)))
      | frame f =>
        exact .inr (.inr (.inr (.inr ⟨f, now, rfl, dispatch_eq_error_iff.mp (exec_dispatch_refused_iff.mp h)⟩)))
    | feed chunk => exact absurd h (exec_ne_refused (.inr (.inl ⟨chunk, rfl⟩)))
    | parse F => exact absurd h (exec_ne_refused (.inr (.inr (.inl ⟨F, rfl⟩))))
    | rx chunk nows => exact absurd h (exec_ne_refused (.inr (.inr (.inr ⟨chunk, nows, rfl⟩))))
    | _ => exact absurd h (exec_ne_refused (.inl rfl))
  · rintro (⟨S, o, l, rfl, h⟩ | ⟨v, id, t, c, rfl, h⟩ | ⟨v, id, t, c, rfl, h⟩ | ⟨now, rfl, h⟩ | ⟨f, now, rfl, h⟩)
    · exact exec_crc16_refused_iff.mpr h
    · exact exec_build_refused_iff.mpr (.inl h)
    · exact exec_build_refused_iff.mpr (.inr h)
    · exact exec_dispatch_invalid_refused_iff.mpr h
    · exact exec_dispatch_refused_iff.mpr (dispatch_eq_error_iff.mpr h)

/-! The step, one lemma per kind of event -/

section step
variable {s : State} {c : Nat} {command : Bytes} {rest : List HostEvent}

theorem step_of_no_event (h : s.pending = []) : step s = .next s := by
  rw [step, h]

theorem step_of_close (h : s.pending = .close c :: rest) : step s = .next (s.closeConn c rest) := by
  rw [step, h]

theorem step_of_invoke (h : s.pending = .invoke c command :: rest) : step s = runCommand command (s.begin c rest) := by
  rw [step, h]

theorem runCommand_of_decode {i : Instr} (h : decode command = .ok i) : runCommand command s = exec i s := by
  rw [runCommand, h]

/-- What a command that completes is: an instruction, or bytes presented as a frame and skipped (R204; log 18). -/
theorem runCommand_next {t : State} (h : runCommand command s = .next t) :
    (∃ i, exec i s = .next t) ∨ t = s.deliver (.rx [.invalid command]) := by
  unfold runCommand at h
  split at h
  · exact .inl ⟨_, h⟩
  · split at h
    · cases h; exact .inr rfl
    · cases h

end step

/-- Settles O4: the event names the command, the command decodes to the instruction. -/
theorem stepRunsDecodedCommand : Obligations.StepRunsDecodedCommand := by
  unfold Obligations.StepRunsDecodedCommand
  intro s c command rest i hpending hdecode _
  rw [step_of_invoke hpending, runCommand_of_decode hdecode]
  rfl

/-- Settles O56: the command of an operation decodes to it, its operands of any length. -/
theorem stepRunsEveryOperation : Obligations.StepRunsEveryOperation := by
  unfold Obligations.StepRunsEveryOperation
  intro s c i rest hop hpending
  rw [step_of_invoke hpending, runCommand_of_decode (decode_encode_operation hop)]
  rfl

/-- Settles O7. -/
theorem stepWithoutEventsIdles : Obligations.StepWithoutEventsIdles :=
  fun _ h => step_of_no_event h

/-- Settles O8: nothing is listed and nothing is pending. -/
theorem resetLeavesEveryBufferEmpty : Obligations.ResetLeavesEveryBufferEmpty :=
  ⟨fun _ => rfl, rfl, rfl, step_of_no_event rfl⟩

/-- Settles O6: the event is a write of the empty BUF. -/
theorem stepClosesConnection : Obligations.StepClosesConnection := by
  unfold Obligations.StepClosesConnection
  intro s c rest hwf hpending
  exact ⟨Memory.write c [] s.mem, step_of_close hpending, Memory.write_wf hwf, Memory.read_write_same hwf,
    fun d hd => Memory.read_write_other hd⟩

/-- Bytes that begin with the marker and that PARSE finds invalid decode to nothing, and are reported so (R204; log 18). -/
theorem runCommand_of_invalid {F : Bytes} (hmark : F.take 2 = [0x40, 0x40]) (hinvalid : parse F = .invalid) (s : State) :
    runCommand F s = .next (s.deliver (.rx [.invalid F])) := by
  obtain ⟨R, rfl⟩ : ∃ R, F = 0x40 :: 0x40 :: R := ⟨F.drop 2, by rw [← List.take_append_drop 2 F, hmark]; simp⟩
  cases hdecode : decode (0x40 :: 0x40 :: R) with
  | ok i =>
    have hframe : decodeFrame (0x40 :: 0x40 :: R) = .ok i := hdecode
    obtain ⟨-, hlen, hdecl, -⟩ := decodeFrame_eq_ok_iff.mp hframe
    have := parse_eq_invalid_iff.mp hinvalid
    omega
  | error e =>
    have hstart : startsWithMarker (0x40 :: 0x40 :: R) = true := rfl
    simp only [runCommand, hdecode, hstart, hinvalid, and_self, if_true]

/-- Settles O5: PARSE's length tests are the ones that fail. -/
theorem stepReportsInvalidFrame : Obligations.StepReportsInvalidFrame := by
  unfold Obligations.StepReportsInvalidFrame
  intro s c F rest hpending hmark hlen
  rw [step_of_invoke hpending, runCommand_of_invalid hmark (parse_eq_invalid_iff.mpr hlen)]
  rfl

/-! The invariant -/

/-- The invariant is about the buffers, and is kept where one of them gets a residue shape. -/
theorem State.Inv.of_write {s t : State} (h : s.Inv) {c : Nat} {v : Bytes} (hv : ResidueShape frontEndBounds v)
    (hmem : t.mem = Memory.write c v s.mem) : t.Inv := by
  rw [State.Inv, hmem]
  refine ⟨Memory.write_wf h.1, fun p hp => ?_⟩
  obtain ⟨rfl, -⟩ | hp := Memory.mem_write hp
  · exact hv
  · exact h.2 p hp

theorem State.Inv.of_mem_eq {s t : State} (h : s.Inv) (hmem : t.mem = s.mem) : t.Inv := by
  rwa [State.Inv, hmem]

/-- Every completed instruction keeps the invariant: what FEED leaves has a residue shape (R24). -/
theorem State.Inv.exec {s t : State} (h : s.Inv) {i : Instr} (hexec : exec i s = .next t) : t.Inv := by
  cases exec_next hexec with
  | answer d r _ ht => exact h.of_mem_eq (ht ▸ rfl)
  | stream chunk _ d r _ ht =>
    subst ht
    exact h.of_write (feed_residue_shape frontEndBounds_valid (s.buf ++ chunk)) rfl

/-- Settles O54: event by event. -/
theorem stepKeepsResidueShapes : Obligations.StepKeepsResidueShapes := by
  unfold Obligations.StepKeepsResidueShapes
  intro s t hinv hstep
  cases hpending : s.pending with
  | nil =>
    cases (step_of_no_event hpending).symm.trans hstep
    exact hinv
  | cons event rest =>
    cases event with
    | close c =>
      cases (step_of_close hpending).symm.trans hstep
      exact hinv.of_write (.inl (by decide)) rfl
    | invoke c command =>
      have hbegin : (s.begin c rest).Inv := hinv.of_mem_eq rfl
      obtain ⟨i, hexec⟩ | rfl := runCommand_next ((step_of_invoke hpending).symm.trans hstep)
      · exact hbegin.exec hexec
      · exact hbegin.of_mem_eq rfl

/-- Settles O55: nothing is listed after reset, and a residue has at most 2047 bytes. -/
theorem resetMeetsResidueShapes : Obligations.ResetMeetsResidueShapes :=
  ⟨⟨State.reset_mem_wf, fun _ hp => absurd hp List.not_mem_nil⟩,
    fun _ c hinv => (hinv.residueShape_read c).length_le⟩

/-! Runs -/

/-- A run whose first step completes goes on from where that step ends. -/
theorem run_succ {M : Host.Core} {k : Nat} {s t : M.State} (h : M.step s = .next t) : M.run (k + 1) s = M.run k t := by
  rw [Host.Core.run, h]

/-- A step on a FEED command is FEED of its chunk on the connection named. -/
theorem step_feed {s : State} {c : Nat} {chunk : Bytes} {rest : List HostEvent}
    (h : s.pending = .invoke c (encode (.feed chunk)) :: rest) :
    ∃ t, step s = .next t ∧ t.mem = Memory.write c (feed frontEndBounds (Memory.read c s.mem) chunk).2 s.mem ∧
      t.pending = rest ∧ t.draws = s.draws ∧
      t.returned = s.returned ++ [(c, .items (feed frontEndBounds (Memory.read c s.mem) chunk).1)] := by
  rw [step_of_invoke h, runCommand_of_decode (decode_encode_operation rfl)]
  exact ⟨_, rfl, rfl, rfl, rfl, rfl⟩

/-- Settles O25: one step a chunk, each leaving the residue the next one starts from. -/
theorem feedCommandsRunInOrder : Obligations.FeedCommandsRunInOrder := by
  unfold Obligations.FeedCommandsRunInOrder
  intro s c chunks rest hwf hpending
  induction chunks generalizing s with
  | nil => exact ⟨s, rfl, rfl, by simp [feedEach], by simpa using hpending, rfl, fun _ _ => rfl⟩
  | cons chunk chunks ih =>
    obtain ⟨s', hstep, hmem, hrest, hdraws, hreturned⟩ := step_feed hpending
    obtain ⟨t, hrun, hread, hreturned', ht, hdraws', hother⟩ := ih s' (hmem ▸ Memory.write_wf hwf) hrest
    have hbuf : Memory.read c s'.mem = (feed frontEndBounds (Memory.read c s.mem) chunk).2 := by
      rw [hmem, Memory.read_write_same hwf]
    refine ⟨t, (run_succ (M := core) hstep).trans hrun, ?_, ?_, ht, hdraws'.trans hdraws, fun d hd => ?_⟩
    · rw [hread, hbuf, feedEach]
    · rw [hreturned', hreturned, hbuf, feedEach, List.map_cons, List.append_assoc, List.singleton_append]
    · rw [hother d hd, hmem, Memory.read_write_other hd]

end Sys2Proof.Machine
end
